-- ==== Sys2Proof/Word.lean ====
section
/-! DEFINITION. The core's plainest types: a 32-bit word (spec/00_scope.md R10), a byte, and the type of the
permutation table (spec/10_state.md R21). -/

namespace Sys2Proof

/-- A word is 32 bits, bit 0 least significant (R10); a sample is a word too (R11). -/
abbrev Word := BitVec 32

/-- A byte: one entry of the permutation table (R21), or one byte of a sample cell (R43). -/
abbrev Byte := BitVec 8

/-- The shape of `perm`: a fixed-size ordered sequence of 256 entries of 8 bits (R21, state S1 of R20). -/
abbrev PermTable := Vector Byte 256

end Sys2Proof
end

