-- ==== Sys2Proof/Config.lean ====
section
/-! DEFINITION. What the spec leaves to a platform (spec/00_scope.md R9, spec/92_eei_decisions.md "Named parameters
left OPEN"): the record `Config` that State carries, and the free values (draws), which have no body. -/

namespace Sys2Proof

/-- A half-open range of word addresses, `first` included and `past` excluded. -/
structure CellRange where
  first : Nat
  past : Nat
deriving DecidableEq, Repr

/-- The range holds the cell. -/
def CellRange.holds (r : CellRange) (cell : Nat) : Bool := decide (r.first ≤ cell) && decide (cell < r.past)

/-- The open parameters of R9 that a claim about the core must hold for. The predicate `BACKED` on the finite set of
word addresses is held as plain data, by the ranges it is false on (R46). DESIGN CHOICE (log entry 3). -/
structure Config where
  /-- `AW`, the width of a sample-memory word address, 1 to 32 (R40, D8). -/
  aw : Nat
  /-- The cells outside `BACKED` (R46, D23), as a list of ranges. -/
  unbacked : List CellRange
  /-- `RSPQ_DEPTH`, the capacity of the response queue; `none` is unbounded (R28, D24). -/
  rspqDepth : Option Nat
deriving DecidableEq, Repr

/-- The default value of every open parameter: `AW = 32`, every cell backed, an unbounded response queue (R9). -/
def Config.default : Config := { aw := 32, unbacked := [], rspqDepth := none }

/-- The operations whose NaN result the spec leaves open (R169, R170). `fsub` is `fadd` of a negated operand (R166). -/
inductive FloatOp where
  | add | mul | floor
deriving DecidableEq, Repr

/-- FREE VALUE: the draw behind `NAN_OUT`, the NaN a non-finite input yields (R122, R170, U1). The number counts
EVALUATEs, so every sample has a draw of its own (log entry 4). -/
opaque Config.nanOutDraw : Nat → Word

/-- FREE VALUE: the draw behind the NaN an operation inside EVALUATE returns (R170, U3), by operation and operands (log
entry 5). -/
opaque Config.opNanDraw : FloatOp → Word → Word → Word

/-- FREE VALUE: the lattice index of a non-finite coordinate (R111, U2), by the number of the EVALUATE and by the
coordinate. Being a byte, it is in 0..255 as R111 asks (log entry 6). -/
opaque Config.latticeDraw : Nat → Word → Byte

/-- FREE VALUE: whether a PROCESS that a reset cuts short has performed its sample, by the number of the EVALUATE it
would have been (R240, U8, log entry 10). -/
opaque Config.cutDraw : Nat → Bool

end Sys2Proof
end

