-- ==== Sys2Proof/Machine/Permutation.lean ====
section
/-! DEFINITION. The permutation table generator as pure functions: LCG_NEXT and BUILD_PERMUTATION
(spec/40_permutation_generator.md R90 to R95). State.reset needs them, so they stand before State. -/

namespace Sys2Proof.Machine

/-- LCG_NEXT (R90, R91, R160): `(1664525 * lcg + 1013904223) mod 2^32`, the new value. -/
def lcgNext (lcg : Word) : Word := 1664525#32 * lcg + 1013904223#32

/-- The identity table that BUILD_PERMUTATION starts from (R92). -/
def identityTable : PermTable := Vector.ofFn fun t => BitVec.ofNat 8 t.val

/-- The swap index `j = r mod (i + 1)`, an unsigned remainder (R92, R161). -/
def swapIndex (r : Word) (i : Nat) : Nat := r.toNat % (i + 1)

theorem swapIndex_le (r : Word) (i : Nat) : swapIndex r i ≤ i :=
  Nat.le_of_lt_succ (Nat.mod_lt _ (Nat.succ_pos i))

/-- The loop of BUILD_PERMUTATION from index `i` down to 1 (R92): one draw and one swap for each index (R93). The LCG
state is an argument, threaded through the loop and dropped at its end (R24). -/
def shuffleFrom : (i : Nat) → i < 256 → Word → PermTable → PermTable
  | 0, _, _, perm => perm
  | i + 1, hi, lcg, perm =>
    let r := lcgNext lcg
    shuffleFrom i (Nat.lt_of_succ_lt hi) r
      (perm.swap (i + 1) (swapIndex r (i + 1)) hi (Nat.lt_of_le_of_lt (swapIndex_le r (i + 1)) hi))

/-- BUILD_PERMUTATION (R92): a function of the seed and of nothing else (R94). It is irreducible so that the elaborator
does not run the 255 swaps while it compares states; `unfold` and the kernel see through it. -/
@[irreducible] def buildPermutation (seed : Word) : PermTable := shuffleFrom 255 (by decide) seed identityTable

end Sys2Proof.Machine
end

