-- ==== Sys2Proof/Machine/State.lean ====
section
/-! DEFINITION. The state of the core and of what it is wired to, the ways a step can stop, and the state after reset
(spec/10_state.md R20 to R35). -/

namespace Sys2Proof.Machine

/-- The sample memory, as a list of byte cells in one canonical form: byte addresses strictly rising, no entry equal to
what an unlisted byte reads as (Machine/Memory.lean). Word `a` of R40 is bytes `4a` to `4a + 3` (R43, log entry 12). -/
abbrev Memory := List Host.Cell

/-- What the host can do to the core (R7): one transfer on one of its ports (R74), or a write of its own to the sample
memory between commands (R51, R246). -/
inductive HostEvent where
  /-- One word of the command stream is accepted: `cmd_valid` and `cmd_ready` both 1 (R60, R73, R74). -/
  | word (w : Word)
  /-- The host takes the front word of `rspq`: `rsp_valid` and `rsp_ready` both 1 (R28, R74). -/
  | takeResponse
  /-- The host writes one cell of its sample memory outside the window of a PROCESS (R51, R242, R246). -/
  | store (cell : Word) (value : Word)
  /-- `rst` is asserted and released (R240), with no command running or with one that waits for room in `rspq`. -/
  | reset
  /-- One word of the command stream is accepted, and `rst` is asserted before the command it completes has ended: that
  command is abandoned (R240, U8, hazard H9 of R243). -/
  | wordCutByReset (w : Word)
deriving DecidableEq, Repr

/-- What stops the machine with a fault of the MODEL. A fault of the core (R201) is not one of these: it is an ordinary
next state, fault entry (R207). -/
inductive Fault where
  /-- An access to a cell address at or above `2^AW`, where no cell exists (R40). No command raises it, since the checks
  of R141 come first (R142); only a host that stores to such an address does. SAFE: the model stops. -/
  | addressOutsideSpace (cell : Nat)
deriving DecidableEq, Repr

/-- Why no step is enabled: each constructor but the first is a wait that the spec describes as "no step enabled", not
as completion and not as a fault (R209, R219), or a transfer that the ports do not make (R74). -/
inductive Refusal where
  /-- An instruction without a meaning. No arm of `exec` answers it. SAFE: the model stops. -/
  | notModelled (mnemonic : String)
  /-- The host offers nothing more: the core is idle (R218) or waits for the rest of a packet (R219 (1), R73, U12).
  Raised by `step`. SAFE: the spec enables no step here. -/
  | awaitingHost
  /-- A command word is offered to a FAULTED core, which never accepts one (R209, U20). Raised by `step`. SAFE. -/
  | coreFaulted
  /-- A command word is offered while a command waits for room in a full response queue (R28, R219 (2), U13): `cmd_ready`
  is 0 until the host takes a response. Raised by `step`. SAFE. -/
  | commandRunning
  /-- The host would take a response and `rspq` is empty: `rsp_valid` is 0 (R74, R211). Raised by `step`. SAFE. -/
  | noResponse
  /-- An access to a cell outside `BACKED` is never answered and the command never ends (R46, R219 (3), U4). Raised by
  PROCESS and by a host's store. SAFE: the model stops where the core is stuck. -/
  | cellNotBacked (cell : Nat)
  /-- The host would store to a cell that a PROCESS accesses before taking the response of that PROCESS: a race, which the
  host must not run (R51, hazards H1 and H2 of R243, U5, U6 "refuse"). Raised by a host's store. SAFE. -/
  | storeRaces (cell : Nat)
deriving DecidableEq, Repr

/-- An operation that may stop: the three outcomes of a step around a value of any type. -/
abbrev Access (α : Type) := Host.Outcome α Fault Refusal

/-- The whole state: S1 to S6 of R20, the sample memory the core is wired to (R40), and five fields of the MODEL's
own (`rspHold`, `windows`, `draws`, `host`, `cfg`). The transients T1 to T4 of R20 have no value between commands (R35, R241). -/
structure State where
  /-- S1, the permutation table (R21). -/
  perm : PermTable
  /-- S2, port `fault` (R26). -/
  faulted : Bool
  /-- S3, port `fault_cause` (R26). -/
  cause : BitVec 4
  /-- S4, port `fault_info` (R26). -/
  finfo : Word
  /-- S5, the words of the packet being received, header first (R27). -/
  cmdbuf : List Word
  /-- S6, the response queue, front first (R28). -/
  rspq : List Word
  /-- MODEL: the response of a command that has done everything but end, because `rspq` is full (R28, log entry 8). -/
  rspHold : Option Word
  /-- MODEL: for each response not taken yet, front first, the cells its command accesses (R51, log entry 11). -/
  windows : List (List CellRange)
  /-- The sample memory, the host's (R40). -/
  mem : Memory
  /-- MODEL: how many EVALUATEs have run; it numbers the free values of Config.lean (log entry 4). -/
  draws : Nat
  /-- MODEL: what the host does next, first event first (R60, log entry 1). -/
  host : List HostEvent
  /-- MODEL: the open parameters of R9, which no step changes (log entry 3). -/
  cfg : Config
deriving DecidableEq, Repr

/-- The state right after reset (R35, R240), in the default configuration (R9), with nothing placed in the sample memory
and with a host that has not yet done anything (log entry 13). -/
def State.reset : State where
  perm := buildPermutation 0#32
  faulted := false
  cause := 0#4
  finfo := 0#32
  cmdbuf := []
  rspq := []
  rspHold := none
  windows := []
  mem := []
  draws := 0
  host := []
  cfg := Config.default

end Sys2Proof.Machine
end

