-- ==== Sys2Proof/Machine/Memory.lean ====
section
/-! DEFINITION. The sample memory as data: its canonical form, one byte, one cell (spec/20_memory.md R40, R43, R45). The
accesses a command makes, which may stop, are in Machine/Ops.lean. -/

namespace Sys2Proof.Machine

/-- What a byte that the memory does not list reads as. DESIGN CHOICE (log entry 2): the spec gives the sample memory no
initial contents, the host owns it (R40). Unsafe. -/
def unlistedByte : Byte := 0x00#8

/-- The canonical form: addresses strictly rising, and no entry equal to what an unlisted byte reads as. -/
abbrev Memory.wf (m : Memory) : Prop :=
  m.Pairwise (fun p q => p.1 < q.1) ∧ ∀ c ∈ m, c.2 ≠ unlistedByte

/-- One byte. -/
def readByte : Memory → Nat → Byte
  | [], _ => unlistedByte
  | c :: m, a => if c.1 = a then c.2 else readByte m a

/-- Put one byte, keeping the canonical form. -/
def writeByte : Memory → Nat → Byte → Memory
  | [], a, v => if v = unlistedByte then [] else [(a, v)]
  | c :: m, a, v =>
    if a < c.1 then (if v = unlistedByte then c :: m else (a, v) :: c :: m)
    else if c.1 = a then (if v = unlistedByte then m else (a, v) :: m)
    else c :: writeByte m a v

/-- The 32 bits of cell `a`: little-endian, bits [7:0] at byte `4a` and bits [31:24] at byte `4a + 3` (R43). -/
def readCell (m : Memory) (a : Nat) : Word :=
  readByte m (4 * a + 3) ++ readByte m (4 * a + 2) ++ readByte m (4 * a + 1) ++ readByte m (4 * a)

/-- Replace cell `a` by the 32 bits of `v`, and nothing else (R43, R45). -/
def writeCell (m : Memory) (a : Nat) (v : Word) : Memory :=
  let m0 := writeByte m (4 * a) (v.extractLsb' 0 8)
  let m1 := writeByte m0 (4 * a + 1) (v.extractLsb' 8 8)
  let m2 := writeByte m1 (4 * a + 2) (v.extractLsb' 16 8)
  writeByte m2 (4 * a + 3) (v.extractLsb' 24 8)

end Sys2Proof.Machine
end

