-- ==== Sys2Proof/Machine/Flags.lean ====
section
/-! DEFINITION. The core has no flags or condition codes (spec/10_state.md R31) and no float exception flags
(spec/43_arithmetic.md R175). What it has instead of them is here: the causes of its faults (spec/60_exceptions.md R201)
and the response word (spec/30_encoding.md R69). -/

namespace Sys2Proof.Machine

/-- The complete list of the core's faults (R201). -/
inductive FaultCause where
  | illegalCommand | badDescriptor | bufferTooShort | bufferOverlap
deriving DecidableEq, Repr

/-- The code of a cause in `fault_cause` and in the response word (R201). -/
def causeCode : FaultCause → BitVec 4
  | .illegalCommand => 1#4
  | .badDescriptor => 2#4
  | .bufferTooShort => 3#4
  | .bufferOverlap => 4#4

/-- The response word (R69): `op` in bits [7:0], `cause` in bits [11:8], zero in bits [31:12]. -/
def responseWord (op : Byte) (cause : BitVec 4) : Word := 0#20 ++ cause ++ op

end Sys2Proof.Machine
end

