-- ==== Sys2Proof/Syntax.lean ====
section
/-! DEFINITION. The commands of the core: one constructor per row of spec/opcode_table.json
(spec/30_encoding.md R61, R63, R65). -/

namespace Sys2Proof

/-- A buffer descriptor: the word address of element 0 and the number of elements (R47). -/
structure Descriptor where
  base : Word
  len : Word
deriving DecidableEq, Repr

/-- The three legal commands (R61). -/
inductive Instr where
  /-- CONSTRUCT, format C0: Construct with no seed supplied (R96). -/
  | construct
  /-- CONSTRUCT.S, format C1: Construct with a seed (R97). -/
  | constructS (seed : Word)
  /-- PROCESS, format P: the descriptors of `in_x`, `in_y`, `in_z` and `out`, and the count (R140, R63). -/
  | process (x y z o : Descriptor) (n : Word)
deriving DecidableEq, Repr

end Sys2Proof
end

