-- ==== Sys2Proof/Machine/Operands.lean ====
section
/-! DEFINITION. The operands of PROCESS: element addresses, and the checks of the preconditions
(spec/20_memory.md R47, spec/42_process.md R141). All sums and comparisons are on unbounded naturals. -/

namespace Sys2Proof.Machine

/-- The word address of element `k` of a buffer, without wrap-around (R47). -/
def elementCell (d : Descriptor) (k : Nat) : Nat := d.base.toNat + k

/-- Check 1 fails on `d`: the declared buffer runs past the end of the address space (R141, R203). -/
def descriptorBad (cfg : Config) (d : Descriptor) : Bool := decide (2 ^ cfg.aw < d.base.toNat + d.len.toNat)

/-- Check 2 fails on `d`: the buffer is shorter than the count (R141, R204). -/
def bufferShort (n : Word) (d : Descriptor) : Bool := decide (d.len.toNat < n.toNat)

/-- Check 3 fails on `d`: its accessed range meets the accessed range of the output (R141, R205). -/
def buffersMeet (o : Descriptor) (n : Word) (d : Descriptor) : Bool :=
  decide (d.base.toNat < o.base.toNat + n.toNat) && decide (o.base.toNat < d.base.toNat + n.toNat)

/-- What a PROCESS accesses: the first `n` elements of each buffer (R48). -/
def accessedRanges (x y z o : Descriptor) (n : Word) : List CellRange :=
  [x, y, z, o].map fun d => { first := d.base.toNat, past := d.base.toNat + n.toNat }

/-- A buffer index as `finfo` records it (R201). -/
def bufferIndex (b : Nat) : Word := BitVec.ofNat 32 b

/-- CHECK_PROCESS (R141): the fault of the first check that fails, with the index of the first buffer it fails on, or
`none` when all pass. Buffers are numbered 0 = in_x, 1 = in_y, 2 = in_z, 3 = out (R201, R206). -/
def checkProcess (cfg : Config) (x y z o : Descriptor) (n : Word) : Option (FaultCause × Word) :=
  match [x, y, z, o].findIdx? (descriptorBad cfg) with
  | some b => some (.badDescriptor, bufferIndex b)
  | none =>
    match [x, y, z, o].findIdx? (bufferShort n) with
    | some b => some (.bufferTooShort, bufferIndex b)
    | none =>
      if n = 0#32 then none
      else ([x, y, z].findIdx? (buffersMeet o n)).map fun b => (.bufferOverlap, bufferIndex b)

end Sys2Proof.Machine
end

