-- ==== Sys2Proof/Machine/Ops.lean ====
section
/-! DEFINITION. The shared operations: the accesses to the sample memory, the response queue, FAULT ENTRY, and RESET, the
only way back from a fault. -/

namespace Sys2Proof.Machine

/-- Run `f` on the value of `a`, or stop as `a` stops. -/
def andThen {α β : Type} (a : Access α) (f : α → Access β) : Access β :=
  match a with
  | .next v => f v
  | .fault r => .fault r
  | .refused r => .refused r

/-- `BACKED` (R46): no range of the configuration's `unbacked` holds the cell. -/
def cellBacked (cfg : Config) (a : Nat) : Bool :=
  !(cfg.unbacked.any fun r => r.holds a)

/-- The access to cell `a` is answered by the platform with `v`: the cell exists (R40) and is backed (R46). -/
def accessCell {α : Type} (cfg : Config) (a : Nat) (v : α) : Access α :=
  if 2 ^ cfg.aw ≤ a then .fault (.addressOutsideSpace a)
  else if cellBacked cfg a then .next v
  else .refused (.cellNotBacked a)

/-- `MemRead(a, 4)` (R12, R45): the 32 bits of the cell, with no side effect. -/
def memRead (s : State) (a : Nat) : Access Word := accessCell s.cfg a (readCell s.mem a)

/-- `MemWrite(a, 4, v)` (R12, R45): the cell replaced, nothing else. -/
def memWrite (s : State) (a : Nat) (v : Word) : Access State :=
  accessCell s.cfg a { s with mem := writeCell s.mem a v }

/-- The response queue has room for one more word (R28, `RSPQ_DEPTH`). An `abbrev`, as is `cmdReady`: of a def applied to two
states the kernel compares the states first, and it would run the 255 swaps to compare their tables. -/
abbrev State.hasRoom (s : State) : Bool :=
  match s.cfg.rspqDepth with
  | none => true
  | some depth => decide (s.rspq.length < depth)

/-- `cmd_ready` (R74): the core accepts a command word unless it is FAULTED (R209) or a command still waits to end (R28). -/
abbrev State.cmdReady (s : State) : Bool := !s.faulted && s.rspHold.isNone

/-- `rsp_valid` (R74): 1 exactly while `rspq` is not empty (R211). -/
def State.rspValid (s : State) : Bool := !s.rspq.isEmpty

/-- `rsp_data` (R74): the front word of `rspq`. -/
def State.rspData (s : State) : Option Word := s.rspq.head?

/-- `push_rsp(w)` (R12, R28, R70): the word goes to the back of `rspq`; with the queue full the command waits to end and
the word waits with it (R219 (2)). `window` is what the command accesses, off limits to the host until it has taken the
word (R51). -/
def pushRsp (w : Word) (window : List CellRange) (s : State) : State :=
  if s.hasRoom then { s with rspq := s.rspq ++ [w], windows := s.windows ++ [window] }
  else { s with rspHold := some w, windows := s.windows ++ [window] }

/-- FAULT ENTRY, `raise F(info)` (R207): `op` is the low byte of the faulting command's header. Nothing else is saved,
control goes nowhere, and the command has accessed nothing (R208). -/
def raiseFault (c : FaultCause) (info : Word) (op : Byte) (s : State) : State :=
  pushRsp (responseWord op (causeCode c)) []
    { s with faulted := true, cause := causeCode c, finfo := info, cmdbuf := [] }

/-- RESET (R240): the only way out of FAULTED (R209). The sample memory is not touched and no response is posted; a
response that still waited for room is abandoned with its command. -/
def doReset (s : State) : State :=
  { s with
    faulted := false, cause := 0#4, finfo := 0#32, cmdbuf := [], rspq := [], rspHold := none, windows := []
    perm := buildPermutation 0#32 }

/-- The host takes the front response (R28, R74), which closes the window of its command (R51). A command that waited for
the room ends now: its response follows. -/
def takeResponse (s : State) : Access State :=
  match s.rspq with
  | [] => .refused .noResponse
  | _ :: rest =>
    match s.rspHold with
    | none => .next { s with rspq := rest, windows := s.windows.tail }
    | some w => .next { s with rspq := rest ++ [w], rspHold := none, windows := s.windows.tail }

/-- A write of the host's to a cell, outside the window of every PROCESS (R51, R246, log entry 11). -/
def hostStore (cell : Nat) (value : Word) (s : State) : Access State :=
  if s.windows.any (fun window => window.any fun r => r.holds cell) then .refused (.storeRaces cell)
  else memWrite s cell value

end Sys2Proof.Machine
end

