-- ==== Sys2Proof/Machine/Generator.lean ====
section
/-! DEFINITION. The commands of the permutation table generator (spec/40_permutation_generator.md R96, R97). -/

namespace Sys2Proof.Machine

/-- CONSTRUCT (R96): `BUILD_PERMUTATION(0)`, then the response `0x00000001`. -/
def execConstruct (s : State) : Access State :=
  .next (pushRsp (responseWord 0x01#8 0#4) [] { s with perm := buildPermutation 0#32 })

/-- CONSTRUCT.S (R97): `BUILD_PERMUTATION(seed)`, then the response `0x00000001`; the `s` bit is not echoed. -/
def execConstructS (seed : Word) (s : State) : Access State :=
  .next (pushRsp (responseWord 0x01#8 0#4) [] { s with perm := buildPermutation seed })

end Sys2Proof.Machine
end

