-- ==== Sys2Proof/Machine/Float.lean ====
section
/-! DEFINITION. The binary32 primitives of spec/43_arithmetic.md (R165 to R172): every finite value is an integer
multiple of `2^-149`, so a finite operation is exact on integers and is then rounded once, to nearest, ties to even. That
the operations are these and not parameters is log entry 7. -/

namespace Sys2Proof.Machine

/-- Bit 31 (R165). -/
def signBit (a : Word) : Bool := decide (2 ^ 31 ≤ a.toNat)

/-- Bits [30:23], the biased exponent (R165). -/
def expField (a : Word) : Nat := a.toNat / 2 ^ 23 % 2 ^ 8

/-- Bits [22:0], the fraction (R165). -/
def fracField (a : Word) : Nat := a.toNat % 2 ^ 23

/-- The exponent field is not 255 (R11). -/
def isFinite (a : Word) : Bool := decide (expField a ≠ 255)

/-- Exponent field 255 with fraction 0 (R165). -/
def isInf (a : Word) : Bool := decide (expField a = 255) && decide (fracField a = 0)

/-- Exponent field 255 with non-zero fraction (R165). A signalling NaN is treated as a quiet one (R170). -/
def isNaN (a : Word) : Bool := decide (expField a = 255) && decide (fracField a ≠ 0)

/-- A zero, of either sign (R165). -/
def isZero (a : Word) : Bool := decide (expField a = 0) && decide (fracField a = 0)

/-- The magnitude of a finite value in units of `2^-149`: `fraction` for a zero or a subnormal, which is not flushed
(R171), and `(2^23 + fraction) * 2^(exponent - 1)` for a normal number (R165). -/
def magnitude (a : Word) : Nat :=
  if expField a = 0 then fracField a else (2 ^ 23 + fracField a) * 2 ^ (expField a - 1)

/-- The value of a finite pattern in units of `2^-149` (R165). -/
def scaled (a : Word) : Int := if signBit a then -(magnitude a : Int) else (magnitude a : Int)

/-- `m / 2^k` rounded to the nearest integer, ties to even (R166). -/
def roundShift (m k : Nat) : Nat :=
  let q := m / 2 ^ k
  let r := m % 2 ^ k
  if 2 ^ k < 2 * r ∨ (2 * r = 2 ^ k ∧ q % 2 = 1) then q + 1 else q

/-- How many low bits of `m` lie below the last place of the binary32 number nearest to `m * 2^-s` units of `2^-149`: at
least `s`, the subnormal grid, and enough to leave 24 significant bits (R166, R171). -/
def dropBits (m s : Nat) : Nat := max s (m.log2 - 23)

/-- Bits [30:0] of the binary32 number nearest to `m * 2^-s` units of `2^-149`. With the significand rounded to `q` the
bits are `(dropBits m s - s) * 2^23 + q`: a significand below `2^23` is a subnormal's fraction, its leading 1 raises the
exponent field by one, and a carry out of 24 bits raises it once more. A magnitude that reaches `2^128` becomes the
infinity (R166). -/
def packMagnitude (m s : Nat) : Nat :=
  min ((dropBits m s - s) * 2 ^ 23 + roundShift m (dropBits m s)) 0x7F800000

/-- The pattern with the sign `neg` and the low 31 bits `bits`. -/
def withSign (neg : Bool) (bits : Nat) : Word := BitVec.ofNat 32 (if neg then 2 ^ 31 + bits else bits)

/-- The NaN that a draw selects: its sign and its fraction, a zero fraction being made 1, so that every NaN and nothing
else can come out (R170). -/
def nanOf (draw : Word) : Word :=
  if fracField draw = 0 then draw ||| 0x7F800001#32 else draw ||| 0x7F800000#32

/-- The NaN an operation inside EVALUATE returns: a draw (R170, U3). -/
def opNaN (op : FloatOp) (a b : Word) : Word := nanOf (Config.opNanDraw op a b)

/-- `fneg`: bit 31 flipped, nothing else (R168). -/
def fneg (a : Word) : Word := a ^^^ 0x80000000#32

/-- `fadd` (R166, R170). An exact sum of zero is `-0` only when both operands are negative (R172). -/
def fadd (a b : Word) : Word :=
  if isNaN a || isNaN b then opNaN .add a b
  else if isInf a then (if isInf b && (signBit a != signBit b) then opNaN .add a b else a)
  else if isInf b then b
  else
    let v := scaled a + scaled b
    if v = 0 then withSign (signBit a && signBit b) 0
    else withSign (decide (v < 0)) (packMagnitude v.natAbs 0)

/-- `fsub(a, b) = fadd(a, fneg(b))` (R166). -/
def fsub (a b : Word) : Word := fadd a (fneg b)

/-- `fmul` (R166, R170). The sign is the exclusive-or of the operands' signs, of a zero too (R172). -/
def fmul (a b : Word) : Word :=
  let neg := signBit a != signBit b
  if isNaN a || isNaN b then opNaN .mul a b
  else if (isInf a && isZero b) || (isZero a && isInf b) then opNaN .mul a b
  else if isInf a || isInf b then withSign neg 0x7F800000
  else withSign neg (packMagnitude (magnitude a * magnitude b) 149)

/-- The greatest integer not above a finite value (R169): `2^149` units are 1, and `Int` division rounds down. -/
def floorInt (a : Word) : Int := scaled a / 2 ^ 149

/-- `ffloor` (R169): the floor as a binary32 value, exact; a zero result keeps the operand's sign, so `-0` gives `-0`. -/
def ffloor (a : Word) : Word :=
  if isNaN a then opNaN .floor a a
  else if isInf a then a
  else if floorInt a = 0 then withSign (signBit a) 0
  else withSign (decide (floorInt a < 0)) (packMagnitude ((floorInt a).natAbs * 2 ^ 149) 0)

/-- The mathematical integer that an integer-valued finite pattern equals, `int(fc)` of R164. -/
def intOf (a : Word) : Int := floorInt a

/-- The float constant `1.0` (R173). -/
abbrev fOne : Word := 0x3F800000#32
/-- The float constant `6.0` (R173). -/
abbrev fSix : Word := 0x40C00000#32
/-- The float constant `10.0` (R173). -/
abbrev fTen : Word := 0x41200000#32
/-- The float constant `15.0` (R173). -/
abbrev fFifteen : Word := 0x41700000#32

end Sys2Proof.Machine
end

