-- ==== Sys2Proof/Machine/Kernel.lean ====
section
/-! DEFINITION. The noise kernel (spec/41_noise_kernel.md R110 to R123): LATTICE, FRAC, FADE, HASH, CHAIN, GRAD, LERP, the
trilinear interpolation, and EVALUATE. `d` is the number of the EVALUATE, by which its free values are drawn. -/

namespace Sys2Proof.Machine

/-- The lattice index of LATTICE (R111, R164): `int(ffloor(c)) mod 256`, never negative, for a finite coordinate and a
draw for any other. -/
def latticeIndex (d : Nat) (c : Word) : Nat :=
  if isFinite c then (intOf (ffloor c) % 256).toNat else (Config.latticeDraw d c).toNat

/-- FRAC (R112): `fsub(c, ffloor(c))`, one rounded operation and no clamp. -/
def frac (c : Word) : Word := fsub c (ffloor c)

/-- FADE (R113): seven rounded operations, `t^3` as `(t*t)*t`. -/
def fade (t : Word) : Word :=
  let t2 := fmul t t
  let t3 := fmul t2 t
  let p := fmul t fSix
  let q := fsub p fFifteen
  let r := fmul t q
  let s := fadd r fTen
  fmul t3 s

/-- HASH (R114): `perm[i mod 256]`. -/
def hash (perm : PermTable) (i : Nat) : Nat := (perm[i % 256]'(Nat.mod_lt i (by decide))).toNat

/-- The six values of the hash chain (R115). -/
structure Chain where
  A : Nat
  AA : Nat
  AB : Nat
  B : Nat
  BA : Nat
  BB : Nat
deriving DecidableEq, Repr

/-- CHAIN (R115): plain sums, reduced only inside HASH (R162). -/
def chain (perm : PermTable) (X Y Z : Nat) : Chain :=
  let A := hash perm X + Y
  let B := hash perm (X + 1) + Y
  { A := A, AA := hash perm A + Z, AB := hash perm (A + 1) + Z,
    B := B, BA := hash perm B + Z, BB := hash perm (B + 1) + Z }

/-- GRAD (R116, R163), the selector being the low four bits of the table entry. -/
def grad (hv : Nat) (gx gy gz : Word) : Word :=
  let h := hv % 16
  let gu := if h < 8 then gx else gy
  let gv := if h < 4 then gy else if h = 12 ∨ h = 14 then gx else gz
  let a := if h % 2 = 0 then gu else fneg gu
  let b := if h / 2 % 2 = 0 then gv else fneg gv
  fadd a b

/-- LERP (R119): `fadd(a, fmul(t, fsub(b, a)))`, three rounded operations, not fused. -/
def lerp (t a b : Word) : Word := fadd a (fmul t (fsub b a))

/-- The eight corner gradients (R118); in the name of a field the three digits say far (1) or near (0) in x, y and z. -/
structure Corners where
  g000 : Word
  g100 : Word
  g010 : Word
  g110 : Word
  g001 : Word
  g101 : Word
  g011 : Word
  g111 : Word
deriving DecidableEq, Repr

/-- The corner offsets and gradients (R117, R118): the selector of a corner is the table entry at its chain value. -/
def corners (perm : PermTable) (c : Chain) (xf yf zf : Word) : Corners :=
  let x1 := fsub xf fOne
  let y1 := fsub yf fOne
  let z1 := fsub zf fOne
  { g000 := grad (hash perm c.AA) xf yf zf
    g100 := grad (hash perm c.BA) x1 yf zf
    g010 := grad (hash perm c.AB) xf y1 zf
    g110 := grad (hash perm c.BB) x1 y1 zf
    g001 := grad (hash perm (c.AA + 1)) xf yf z1
    g101 := grad (hash perm (c.BA + 1)) x1 yf z1
    g011 := grad (hash perm (c.AB + 1)) xf y1 z1
    g111 := grad (hash perm (c.BB + 1)) x1 y1 z1 }

/-- Trilinear interpolation (R120): along x, then y, then z, the near value first in every LERP. No clamp (R121). -/
def trilinear (u v w : Word) (g : Corners) : Word :=
  let l00 := lerp u g.g000 g.g100
  let l10 := lerp u g.g010 g.g110
  let l01 := lerp u g.g001 g.g101
  let l11 := lerp u g.g011 g.g111
  let m0 := lerp v l00 l10
  let m1 := lerp v l01 l11
  lerp w m0 m1

/-- EVALUATE before its last line (R123): the composition of R111 to R120. -/
def interpolate (d : Nat) (perm : PermTable) (x y z : Word) : Word :=
  let xf := frac x
  let yf := frac y
  let zf := frac z
  trilinear (fade xf) (fade yf) (fade zf)
    (corners perm (chain perm (latticeIndex d x) (latticeIndex d y) (latticeIndex d z)) xf yf zf)

/-- EVALUATE (R123): when a coordinate is not finite, the NaN that comes out is the draw `NAN_OUT` (R122). -/
def evaluate (d : Nat) (perm : PermTable) (x y z : Word) : Word :=
  if isFinite x && isFinite y && isFinite z then interpolate d perm x y z else nanOf (Config.nanOutDraw d)

end Sys2Proof.Machine
end

