-- ==== Sys2Proof/Machine/Process.lean ====
section
/-! DEFINITION. The command PROCESS (spec/42_process.md R140 to R147). -/

namespace Sys2Proof.Machine

/-- Sample `k` (R142): three reads, EVALUATE, one write. The draw of sample `k` is the `k`-th from the state's. -/
def processSample (x y z o : Descriptor) (k : Nat) (s : State) : Access State :=
  andThen (memRead s (elementCell x k)) fun xk =>
  andThen (memRead s (elementCell y k)) fun yk =>
  andThen (memRead s (elementCell z k)) fun zk =>
  memWrite s (elementCell o k) (evaluate (s.draws + k) s.perm xk yk zk)

/-- The samples of a list of indices, one after the other. The reference order is 0 to n - 1 (R142); R145 allows every
other. -/
def processSamples (x y z o : Descriptor) : List Nat → State → Access State
  | [], s => .next s
  | k :: ks, s => andThen (processSample x y z o k s) (processSamples x y z o ks)

/-- What PROCESS does once its checks have passed (R142): the samples in the reference order, then the response
`0x00000002`. -/
def processRun (x y z o : Descriptor) (n : Word) (s : State) : Access State :=
  andThen (processSamples x y z o (List.range n.toNat) s) fun t =>
    .next (pushRsp (responseWord 0x02#8 0#4) (accessedRanges x y z o n) { t with draws := t.draws + n.toNat })

/-- PROCESS (R142): the checks, which may end the command in fault entry before any access (R147), then the samples. -/
def execProcess (x y z o : Descriptor) (n : Word) (s : State) : Access State :=
  match checkProcess s.cfg x y z o n with
  | some (c, info) => .next (raiseFault c info 0x02#8 s)
  | none => processRun x y z o n s

/-- Sample `k` of a PROCESS that a reset cuts short: performed or not, by a draw (R240, U8). A sample whose accesses are
not answered has not been performed (R46, log entry 10). -/
def cutSample (x y z o : Descriptor) (s : State) (k : Nat) : State :=
  match Config.cutDraw (s.draws + k), processSample x y z o k s with
  | true, .next t => t
  | _, _ => s

/-- What a command has done when `rst` cuts it short, as far as reset leaves it: a PROCESS that passed its checks may have
written any subset of its output cells, and nothing else reaches the sample memory (R41, R240, U8). -/
def abandon (i : Instr) (s : State) : State :=
  match i with
  | .construct => s
  | .constructS _ => s
  | .process x y z o n =>
    match checkProcess s.cfg x y z o n with
    | some _ => s
    | none =>
      let t := (List.range n.toNat).foldl (cutSample x y z o) s
      { t with draws := t.draws + n.toNat }

end Sys2Proof.Machine
end

