-- ==== Sys2Proof/Machine/Dispatch.lean ====
section
/-! DEFINITION. The meaning of every command, one arm per constructor of Instr (spec/30_encoding.md R65). -/

namespace Sys2Proof.Machine

def exec (i : Instr) (s : State) : Host.Outcome State Fault Refusal :=
  match i with
  | .construct => Sys2Proof.Machine.execConstruct s
  | .constructS seed => Sys2Proof.Machine.execConstructS seed s
  | .process x y z o n => Sys2Proof.Machine.execProcess x y z o n s

end Sys2Proof.Machine
end

