-- ==== Sys2Proof/WellFormed.lean ====
section
/-! DEFINITION. Which commands and which configurations are well formed. -/

namespace Sys2Proof

/-- Every term of `Instr` is a well-formed command: an operand is one whole 32-bit word and every value of it is legal
(R64), the seed being unconstrained (R97) and the descriptors being checked by the command itself when it runs (R141). -/
def Instr.wellFormed : Instr → Bool
  | .construct => true
  | .constructS _ => true
  | .process _ _ _ _ _ => true

/-- `1 <= AW <= 32` (R9). -/
def Config.awLegal (c : Config) : Bool := decide (1 ≤ c.aw) && decide (c.aw ≤ 32)

/-- `RSPQ_DEPTH` is a positive integer or unbounded (R9). -/
def Config.depthLegal (c : Config) : Bool :=
  match c.rspqDepth with
  | none => true
  | some d => decide (0 < d)

/-- A configuration the spec allows (R9). Any predicate may be `BACKED`, so `unbacked` has no check. -/
def Config.wellFormed (c : Config) : Bool := c.awLegal && c.depthLegal

end Sys2Proof
end

