-- ==== Sys2Proof/Decode.lean ====
section
/-! DEFINITION. The command encoding of spec/30_encoding.md (R62 to R68): the decoder, then the encoder, then the words
of a row of spec/opcode_table.json. Commands are words on 32-bit ports and have no byte order (R43). -/

namespace Sys2Proof

/-- Header of CONSTRUCT: `op = 0x01`, `s = 0`, `rsv = 0` (R63, format C0). -/
abbrev headerConstruct : Word := 0x00000001#32

/-- Header of CONSTRUCT.S: `op = 0x01`, `s = 1`, `rsv = 0` (R63, format C1). -/
abbrev headerConstructS : Word := 0x00000101#32

/-- Header of PROCESS: `op = 0x02`, `s = 0`, `rsv = 0` (R63, format P). -/
abbrev headerProcess : Word := 0x00000002#32

/-- Bits [7:0] of a header: the operation code, which the response word echoes (R62, R69). -/
def headerOp (h : Word) : Byte := h.extractLsb' 0 8

/-- The length of a packet in words, from its header alone (R68). An illegal header is a packet of length 1 (R66). -/
def packetLength (h : Word) : Nat :=
  if h = headerConstructS then 2 else if h = headerProcess then 10 else 1

/-- Why a sequence of words does not begin with a whole command. -/
inductive DecodeError where
  /-- The header is none of the three of R65; it is an illegal command (R66). -/
  | illegalHeader (h : Word)
  /-- The header is legal or not yet there, and the packet's remaining words have not arrived (R73). -/
  | incomplete
deriving DecidableEq, Repr

/-- The decoder: the command that a sequence of command words begins with, and the words after it. All 32 bits of the
header take part (R65), and an operand word is never examined as a header (R64). -/
def decode : List Word → Except DecodeError (Instr × List Word)
  | [] => .error .incomplete
  | h :: ops =>
    if h = headerConstruct then .ok (.construct, ops)
    else if h = headerConstructS then
      match ops with
      | seed :: rest => .ok (.constructS seed, rest)
      | _ => .error .incomplete
    else if h = headerProcess then
      match ops with
      | xbase :: xlen :: ybase :: ylen :: zbase :: zlen :: obase :: olen :: n :: rest =>
        .ok (.process ⟨xbase, xlen⟩ ⟨ybase, ylen⟩ ⟨zbase, zlen⟩ ⟨obase, olen⟩ n, rest)
      | _ => .error .incomplete
    else .error (.illegalHeader h)

/-- The encoder: the packet of a command, word 0 first (R63). -/
def encode : Instr → List Word
  | .construct => [headerConstruct]
  | .constructS seed => [headerConstructS, seed]
  | .process x y z o n =>
    [headerProcess, x.base, x.len, y.base, y.len, z.base, z.len, o.base, o.len, n]

/-- The words of a command stream: the packets of its commands one after the other (R60). -/
def encodeStream (is : List Instr) : List Word := is.flatMap encode

/-- The packet whose bits, numbered as spec/opcode_table.json numbers them, are the low `nbits` bits of `w` and zero
above: word `t` is bits `32t + 31` to `32t`, and the header says how many words there are (R68). -/
def tablePacket (nbits w : Nat) : List Word :=
  let word (t : Nat) : Word := BitVec.ofNat 32 (w % 2 ^ nbits / 2 ^ (32 * t))
  (List.range (packetLength (word 0))).map word

/-- The command the decoder reads from an opcode-table row's bits. -/
def decodeTableWord (nbits w : Nat) : Option Instr :=
  match decode (tablePacket nbits w) with
  | .ok (i, []) => some i
  | _ => none

end Sys2Proof
end

