-- ==== Sys2Proof/Machine/Fetch.lean ====
section
/-! DEFINITION. What a step starts from: the host's next event, and the acceptance of a command word
(spec/30_encoding.md R60, R73). -/

namespace Sys2Proof.Machine

/-- What the next event of the host leads to: a command to run on a state, or an outcome reached without one. -/
inductive Action where
  | run (i : Instr) (s : State)
  | done (o : Access State)

/-- `accept(w)` (R73), enabled only while the core is not FAULTED (R60) and no command is still waiting to end (R28): the
word is appended to the packet; a whole packet is taken out and runs, an illegal header faults, and a packet that lacks
words waits for them. -/
def acceptWord (w : Word) (s : State) : Action :=
  if s.faulted then .done (.refused .coreFaulted)
  else if s.rspHold.isSome then .done (.refused .commandRunning)
  else
    match decode (s.cmdbuf ++ [w]) with
    | .ok (i, _) => .run i { s with cmdbuf := [] }
    | .error .incomplete => .done (.next { s with cmdbuf := s.cmdbuf ++ [w] })
    | .error (.illegalHeader h) => .done (.next (raiseFault .illegalCommand h (headerOp h) s))

/-- `accept(w)` with `rst` asserted before the command it completes has ended (R240): the command is abandoned. A word
that completes no command, or an illegal one, leaves nothing that RESET does not clear. -/
def acceptWordCut (w : Word) (s : State) : Access State :=
  match acceptWord w s with
  | .run i t => .next (doReset (abandon i t))
  | .done o => andThen o fun t => .next (doReset t)

/-- The next event of the host (R7, R74), taken off its list. -/
def nextAction (s : State) : Action :=
  match s.host with
  | [] => .done (.refused .awaitingHost)
  | .word w :: rest => acceptWord w { s with host := rest }
  | .takeResponse :: rest => .done (takeResponse { s with host := rest })
  | .store cell value :: rest => .done (hostStore cell.toNat value { s with host := rest })
  | .reset :: rest => .done (.next (doReset { s with host := rest }))
  | .wordCutByReset w :: rest => .done (acceptWordCut w { s with host := rest })

/-- `s` with a packet about to complete: all its words but the last received, and the last one the host's next event. -/
def placePacket (ws : List Word) (s : State) : State :=
  match ws.getLast? with
  | none => s
  | some last => { s with cmdbuf := ws.dropLast, host := .word last :: s.host }

end Sys2Proof.Machine
end

