-- ==== Sys2Proof/Machine/Step.lean ====
section
/-! DEFINITION. One step: the host's next event, and the command it completes, if any (spec/30_encoding.md R73,
spec/00_scope.md R7). -/

namespace Sys2Proof.Machine

/-- One step. A command is one atomic step, taken when its last word is accepted (R6, R73). -/
def step (s : State) : Host.Outcome State Fault Refusal :=
  match nextAction s with
  | .run i t => exec i t
  | .done o => o

/-- `s` with the instruction of an opcode-table row's bits placed so that the very next step runs it: its words but the
last in `cmdbuf`, the last one offered by the host (log entry 1). -/
def State.withFetchWord (s : State) (nbits w : Nat) : State := placePacket (tablePacket nbits w) s

end Sys2Proof.Machine
end

