-- ==== Sys2Proof/Machine/Assembler.lean ====
section
/-! DEFINITION. The textual form of a command stream (spec/30_encoding.md R71, R72): one command per line, numbers decimal
or `0x` hexadecimal, `#` starting a comment. There are no pseudo-instructions. -/

namespace Sys2Proof.Machine

/-- A blank inside a line. The spec says nothing of blanks; any number of them may stand around a token (log entry 9). -/
def isBlank (c : Char) : Bool := c == ' ' || c == '\t' || c == '\r'

/-- A token without the blanks around it. -/
def trimBlanks (cs : List Char) : List Char :=
  ((cs.dropWhile isBlank).reverse.dropWhile isBlank).reverse

/-- The value of a digit, decimal or hexadecimal. -/
def digitValue (c : Char) : Option Nat :=
  if '0' ≤ c ∧ c ≤ '9' then some (c.toNat - '0'.toNat)
  else if 'a' ≤ c ∧ c ≤ 'f' then some (c.toNat - 'a'.toNat + 10)
  else if 'A' ≤ c ∧ c ≤ 'F' then some (c.toNat - 'A'.toNat + 10)
  else none

/-- The digits `ds` in a base, after a prefix worth `acc`. -/
def digitsValue (base : Nat) : Nat → List Char → Option Nat
  | acc, [] => some acc
  | acc, c :: cs =>
    match digitValue c with
    | some v => if v < base then digitsValue base (acc * base + v) cs else none
    | none => none

/-- A number: decimal or `0x` hexadecimal, at least one digit, in the range 0 to 2^32 - 1 (R71). -/
def parseNumber (cs : List Char) : Option Word :=
  let value :=
    match cs with
    | '0' :: 'x' :: ds => if ds.isEmpty then none else digitsValue 16 0 ds
    | ds => if ds.isEmpty then none else digitsValue 10 0 ds
  match value with
  | some v => if v < 2 ^ 32 then some (BitVec.ofNat 32 v) else none
  | none => none

/-- Comma-separated operands. -/
def parseOperands (cs : List Char) : Option (List Word) :=
  if (trimBlanks cs).isEmpty then some []
  else (cs.splitOn ',').mapM fun t => parseNumber (trimBlanks t)

/-- One line without its comment: no command on an empty line, else one of the three (R71). -/
def parseLine (line : List Char) : Option (List Instr) :=
  let text := trimBlanks (line.takeWhile (· != '#'))
  let mnemonic := text.takeWhile (!isBlank ·)
  match parseOperands (text.dropWhile (!isBlank ·)) with
  | none => none
  | some ops =>
    if mnemonic = [] then some []
    else if mnemonic = ['c', 'o', 'n', 's', 't', 'r', 'u', 'c', 't'] then
      match ops with
      | [] => some [.construct]
      | _ => none
    else if mnemonic = ['c', 'o', 'n', 's', 't', 'r', 'u', 'c', 't', '.', 's'] then
      match ops with
      | [seed] => some [.constructS seed]
      | _ => none
    else if mnemonic = ['p', 'r', 'o', 'c', 'e', 's', 's'] then
      match ops with
      | [xb, xl, yb, yl, zb, zl, ob, ol, n] => some [.process ⟨xb, xl⟩ ⟨yb, yl⟩ ⟨zb, zl⟩ ⟨ob, ol⟩ n]
      | _ => none
    else none

/-- The commands of a program, `none` where a line is none of the forms of R71. -/
def parseProgram (text : List Char) : Option (List Instr) :=
  ((text.splitOn '\n').mapM parseLine).map List.flatten

/-- The command words that a program assembles to (R71). -/
def assemble (text : List Char) : Option (List Word) := (parseProgram text).map encodeStream

end Sys2Proof.Machine
end

