-- ==== Sys2Proof/Safety.lean ====
section
/-! DEFINITION. What a good state is: the invariants the spec states of the core's state. -/

namespace Sys2Proof.Machine

/-- Every value 0 to 255 appears exactly once (R21). -/
def isPermutation (p : PermTable) : Prop := ∀ v : Byte, p.toList.count v = 1

/-- The words of a packet that lacks at least one word: empty at a packet boundary, else a legal header with fewer
operands than it calls for (R27). -/
def partialPacket (ws : List Word) : Prop :=
  ws = [] ∨ ws = [headerConstructS] ∨ (ws.head? = some headerProcess ∧ ws.length ≤ 9)

/-- What `cause` and `finfo` can be: zero while the core runs (R26), and while it is FAULTED a cause of R201 with the
information R201 gives it. -/
def statusLegal (faulted : Bool) (cause : BitVec 4) (finfo : Word) : Prop :=
  if faulted then
    (cause = 1#4 ∧ finfo ≠ headerConstruct ∧ finfo ≠ headerConstructS ∧ finfo ≠ headerProcess) ∨
      (cause = 2#4 ∧ finfo.toNat < 4) ∨ (cause = 3#4 ∧ finfo.toNat < 4) ∨ (cause = 4#4 ∧ finfo.toNat < 3)
  else cause = 0#4 ∧ finfo = 0#32

/-- The invariant of the machine. -/
structure State.Inv (s : State) : Prop where
  /-- The configuration is one R9 allows. -/
  config : s.cfg.wellFormed = true
  /-- The table is a permutation (R21). -/
  table : isPermutation s.perm
  /-- The memory has its canonical form. -/
  memory : s.mem.wf
  /-- The memory lists no byte outside the address space (R40). -/
  inSpace : ∀ c ∈ s.mem, c.1 < 4 * 2 ^ s.cfg.aw
  /-- The status fields are legal (R26). -/
  status : statusLegal s.faulted s.cause s.finfo
  /-- The command buffer holds an incomplete packet (R27). -/
  packet : partialPacket s.cmdbuf
  /-- A FAULTED core has an empty command buffer (R27). -/
  faultedIdle : s.faulted = true → s.cmdbuf = []
  /-- The response queue keeps to its capacity (R28). -/
  queue : ∀ depth, s.cfg.rspqDepth = some depth → s.rspq.length ≤ depth
  /-- A response waits only for want of room (R28). -/
  hold : s.rspHold ≠ none → s.hasRoom = false
  /-- Every response not yet taken has its window (R51). -/
  windowed : s.windows.length = s.rspq.length + s.rspHold.toList.length

/-- The preconditions of PROCESS in the words of R141: every descriptor well formed and long enough, and, where a sample
is processed at all, the accessed range of the output apart from that of each input. -/
def ProcessLegal (cfg : Config) (x y z o : Descriptor) (n : Word) : Prop :=
  (∀ d ∈ [x, y, z, o], d.base.toNat + d.len.toNat ≤ 2 ^ cfg.aw ∧ n.toNat ≤ d.len.toNat) ∧
  (0 < n.toNat →
    ∀ d ∈ [x, y, z], d.base.toNat + n.toNat ≤ o.base.toNat ∨ o.base.toNat + n.toNat ≤ d.base.toNat)

/-- Every cell a PROCESS accesses (R48) lies inside `BACKED` (R46, hazard H5 of R243). -/
def AccessesBacked (cfg : Config) (x y z o : Descriptor) (n : Word) : Prop :=
  ∀ d ∈ [x, y, z, o], ∀ k < n.toNat, cellBacked cfg (elementCell d k) = true

/-- Sample `k` of a PROCESS, computed from the memory and the table of `s` (R143). -/
def sampleOf (s : State) (x y z : Descriptor) (k : Nat) : Word :=
  evaluate (s.draws + k) s.perm (readCell s.mem (elementCell x k)) (readCell s.mem (elementCell y k))
    (readCell s.mem (elementCell z k))

/-- With room in the queue, the response `w` is appended at its back (R28, R70). -/
def Posted (s t : State) (w : Word) : Prop :=
  s.hasRoom = true → t.rspq = s.rspq ++ [w] ∧ t.rspHold = s.rspHold

/-- `t` is `s` with the response `w` pushed: at the back of the queue, or waiting in the model's `rspHold` where the queue
is full (R28, log entry 8). -/
def Responded (s t : State) (w : Word) : Prop :=
  Posted s t w ∧ (s.hasRoom = false → t.rspq = s.rspq ∧ t.rspHold = some w)

/-- Commands run one after the other (R73), each only if the core accepts it. -/
def runCommands : List Instr → State → Access State
  | [], s => .next s
  | i :: is, s =>
    if s.faulted then .refused .coreFaulted
    else if s.rspHold.isSome then .refused .commandRunning
    else andThen (exec i s) (runCommands is)

end Sys2Proof.Machine
end

