-- ==== Sys2Proof/Certificates/Slice0/Obligations.lean ====
section
/-! DEFINITION. The statements for the provers. A float is compared through `scaled`, its value in units of `2^-149`. -/

open Sys2Proof Sys2Proof.Machine

set_option exponentiation.threshold 300

/-! Encoding -/

/-- R65 and R63, on words written out: the three legal headers decode to their commands with the operands of the
format. -/
def Obligations.SpecWordsDecodeToTheirCommands : Prop :=
  decode [0x00000001#32] = .ok (.construct, []) ∧
  decode [0x00000101#32, 0x00000007#32] = .ok (.constructS 7#32, []) ∧
  decode [0x00000002#32, 0x00000100#32, 0x00000040#32, 0x00000140#32, 0x00000041#32, 0x00000180#32, 0x00000042#32,
      0x000001C0#32, 0x00000043#32, 0x00000044#32] =
    .ok (.process ⟨0x100#32, 0x40#32⟩ ⟨0x140#32, 0x41#32⟩ ⟨0x180#32, 0x42#32⟩ ⟨0x1C0#32, 0x43#32⟩ 0x44#32, [])

/-- The decoder reads exactly the packets of R63: it answers a command when the words begin with that command's packet,
waits when they are a proper beginning of some packet, and calls the header illegal otherwise (R65, R66, R68). -/
def Obligations.DecoderIsExactlyTheEncoding : Prop :=
  ∀ ws : List Word,
    (∀ i rest, decode ws = .ok (i, rest) ↔ ws = encode i ++ rest) ∧
    (decode ws = .error .incomplete ↔ ∃ i more, more ≠ [] ∧ ws ++ more = encode i) ∧
    (∀ h, decode ws = .error (.illegalHeader h) ↔
      ws.head? = some h ∧ h ≠ 0x00000001#32 ∧ h ≠ 0x00000101#32 ∧ h ≠ 0x00000002#32)

/-- R68: the header alone gives the packet's length, and the encoder's packets have that length. -/
def Obligations.PacketLengthFromHeaderAlone : Prop :=
  packetLength 0x00000001#32 = 1 ∧ packetLength 0x00000101#32 = 2 ∧ packetLength 0x00000002#32 = 10 ∧
  (∀ h, h ≠ 0x00000101#32 → h ≠ 0x00000002#32 → packetLength h = 1) ∧
  ∀ i, (encode i).length = packetLength ((encode i).headD 0#32)

/-- R71: the three lines of the rule assemble to the packets it gives, and a number past 32 bits to none. -/
def Obligations.AssemblerWritesThePacketsOfTheRule : Prop :=
  assemble "construct".toList = some [0x00000001#32] ∧
  assemble "construct.s 7".toList = some [0x00000101#32, 0x00000007#32] ∧
  assemble "process 0x100, 64, 0x140, 64, 0x180, 64, 0x1C0, 64, 64".toList =
    some [0x00000002#32, 0x00000100#32, 0x00000040#32, 0x00000140#32, 0x00000040#32, 0x00000180#32, 0x00000040#32,
      0x000001C0#32, 0x00000040#32, 0x00000040#32] ∧
  assemble "construct.s 4294967296".toList = none

/-! The step -/

/-- R73: when the word the host offers completes a packet, the step is the command's meaning on the state with the packet
taken out. -/
def Obligations.StepRunsTheDecodedCommand : Prop :=
  ∀ (s : State) (w : Word) (rest : List HostEvent) (i : Instr),
    s.host = .word w :: rest → s.faulted = false → s.rspHold = none → i.wellFormed = true →
    decode (s.cmdbuf ++ [w]) = .ok (i, []) →
    step s = exec i { s with host := rest, cmdbuf := [] }

/-- R73: a word that leaves the packet incomplete is appended to `cmdbuf`, and nothing else happens. -/
def Obligations.IncompletePacketWaits : Prop :=
  ∀ (s : State) (w : Word) (rest : List HostEvent),
    s.host = .word w :: rest → s.faulted = false → s.rspHold = none →
    decode (s.cmdbuf ++ [w]) = .error .incomplete →
    step s = .next { s with host := rest, cmdbuf := s.cmdbuf ++ [w] }

/-- R66, R202, R207: a word that is none of the three headers, at a packet boundary, enters the fault IllegalCommand with
the word as its information, and does nothing else. The window it opens, the model's own, is empty (log entry 11). -/
def Obligations.IllegalHeaderEntersTheFault : Prop :=
  ∀ (s : State) (w : Word) (rest : List HostEvent),
    s.host = .word w :: rest → s.faulted = false → s.rspHold = none → s.cmdbuf = [] →
    w ≠ 0x00000001#32 → w ≠ 0x00000101#32 → w ≠ 0x00000002#32 →
    ∃ t, step s = .next t ∧ t.faulted = true ∧ t.cause = 1#4 ∧ t.finfo = w ∧ t.cmdbuf = [] ∧
      Responded s t (BitVec.ofNat 32 (0x100 + w.toNat % 0x100)) ∧
      t.windows = s.windows ++ [[]] ∧ t.perm = s.perm ∧ t.mem = s.mem ∧ t.draws = s.draws ∧ t.host = rest ∧
      t.cfg = s.cfg

/-- R202: an operand word never raises IllegalCommand, whatever its value (R64). -/
def Obligations.OperandWordsAreNeverHeaders : Prop :=
  ∀ (s t : State) (w : Word) (rest : List HostEvent),
    s.host = .word w :: rest → s.faulted = false → s.cause = 0#4 → s.cmdbuf ≠ [] → partialPacket s.cmdbuf →
    step s = .next t → t.cause ≠ 1#4

/-- R73, R60: the words of a stream of packets, accepted one by one from a packet boundary, run the stream's commands in
order, each atomically, and nothing else; where the core does not accept a command, the run stops as the command does. -/
def Obligations.CommandStreamRunsItsCommandsInOrder : Prop :=
  ∀ (is : List Instr) (s : State) (rest : List HostEvent),
    s.cmdbuf = [] →
    Host.Core.run Sys2Proof.core (encodeStream is).length
        { s with host := (encodeStream is).map HostEvent.word ++ rest } =
      runCommands is { s with host := rest }

/-- R209, R219, R74: where the spec enables no step the machine takes none. The names of the waits, and a full queue's wait
as `rspHold`, are the model's (log entry 8). -/
def Obligations.WaitsAreNotSteps : Prop :=
  (∀ s : State, s.host = [] → step s = .refused .awaitingHost) ∧
  (∀ (s : State) (w : Word) (rest : List HostEvent), s.host = .word w :: rest → s.faulted = true →
    step s = .refused .coreFaulted) ∧
  (∀ (s : State) (w : Word) (rest : List HostEvent), s.host = .word w :: rest → s.faulted = false →
    s.rspHold ≠ none → step s = .refused .commandRunning) ∧
  (∀ (s : State) (rest : List HostEvent), s.host = .takeResponse :: rest → s.rspq = [] →
    step s = .refused .noResponse)

/-! The permutation table generator -/

/-- R90, R160: LCG_NEXT is the exact product and sum reduced modulo `2^32`. -/
def Obligations.LcgNextIsTheRecurrence : Prop :=
  ∀ lcg : Word, (lcgNext lcg).toNat = (1664525 * lcg.toNat + 1013904223) % 2 ^ 32

/-- R95: for any seed the table built holds every value 0 to 255 exactly once. -/
def Obligations.BuiltTableIsAPermutation : Prop :=
  ∀ seed : Word, isPermutation (buildPermutation seed)

/-- R92, R93: the loop runs from index 255 down to 1. `table i` is the table before the iteration of index `i`: it starts as
the identity; each iteration draws once, the `256 - i`-th draw, takes its remainder `j` by `i + 1`, and exchanges entries `i`
and `j`; what index 1 leaves is the result. The clauses fix every `table i`. The first two entries fixed, 255 and 254, are
given by the first two draws. -/
def Obligations.ShuffleRunsFromTheTopDown : Prop :=
  ∀ seed : Word,
    (∃ table : Nat → PermTable,
      (∀ v < 256, (table 255)[v]? = some (BitVec.ofNat 8 v)) ∧
      (∀ i, 1 ≤ i → i ≤ 255 →
        let j := (lcgNext^[256 - i] seed).toNat % (i + 1)
        ∀ k, (table (i - 1))[k]? =
          if k = i then (table i)[j]? else if k = j then (table i)[i]? else (table i)[k]?) ∧
      buildPermutation seed = table 0) ∧
    let j1 := (lcgNext seed).toNat % 256
    let j2 := (lcgNext (lcgNext seed)).toNat % 255
    (buildPermutation seed)[255].toNat = j1 ∧
    (buildPermutation seed)[254].toNat = if j2 = j1 then 255 else j2

/-- R96: CONSTRUCT builds the seed-0 table, posts `0x00000001`, and changes nothing else; it always completes. The window
it opens, the model's own, is empty (log entry 11). -/
def Obligations.ConstructBuildsTheSeedZeroTable : Prop :=
  ∀ s : State, ∃ t, exec .construct s = .next t ∧ t.perm = buildPermutation 0#32 ∧ Posted s t 0x00000001#32 ∧
    t.windows = s.windows ++ [[]] ∧ t.faulted = s.faulted ∧ t.cause = s.cause ∧ t.finfo = s.finfo ∧
    t.cmdbuf = s.cmdbuf ∧ t.mem = s.mem ∧ t.draws = s.draws ∧ t.host = s.host ∧ t.cfg = s.cfg

/-- R97: CONSTRUCT.S builds the table of its seed, whatever the seed, posts `0x00000001`, and changes nothing else. The
window it opens, the model's own, is empty (log entry 11). -/
def Obligations.ConstructSBuildsTheTableOfItsSeed : Prop :=
  ∀ (seed : Word) (s : State), ∃ t, exec (.constructS seed) s = .next t ∧ t.perm = buildPermutation seed ∧
    Posted s t 0x00000001#32 ∧
    t.windows = s.windows ++ [[]] ∧ t.faulted = s.faulted ∧ t.cause = s.cause ∧ t.finfo = s.finfo ∧
    t.cmdbuf = s.cmdbuf ∧ t.mem = s.mem ∧ t.draws = s.draws ∧ t.host = s.host ∧ t.cfg = s.cfg

/-! Arithmetic -/

/-- R166: a finite sum is the binary32 number nearest to the exact sum, the even one of two equally near, and the infinity
of the sum's sign exactly from halfway between the largest finite number and `2^128` on. -/
def Obligations.AdditionRoundsToNearestEven : Prop :=
  ∀ a b : Word, isFinite a = true → isFinite b = true →
    let v := scaled a + scaled b
    (|v| < 2 ^ 277 - 2 ^ 252 → isFinite (fadd a b) = true ∧
      ∀ c : Word, isFinite c = true →
        |scaled (fadd a b) - v| ≤ |scaled c - v| ∧
        (scaled c ≠ scaled (fadd a b) → |scaled (fadd a b) - v| = |scaled c - v| → (fadd a b).toNat % 2 = 0)) ∧
    (2 ^ 277 - 2 ^ 252 ≤ |v| → isInf (fadd a b) = true ∧ signBit (fadd a b) = decide (v < 0))

/-- R166: the same for a product, whose exact value is in units of `2^-298`; the sign is the exclusive-or of the
operands' signs. -/
def Obligations.MultiplicationRoundsToNearestEven : Prop :=
  ∀ a b : Word, isFinite a = true → isFinite b = true →
    let p := scaled a * scaled b
    signBit (fmul a b) = (signBit a != signBit b) ∧
    (|p| < (2 ^ 277 - 2 ^ 252) * 2 ^ 149 → isFinite (fmul a b) = true ∧
      ∀ c : Word, isFinite c = true →
        |scaled (fmul a b) * 2 ^ 149 - p| ≤ |scaled c * 2 ^ 149 - p| ∧
        (scaled c ≠ scaled (fmul a b) → |scaled (fmul a b) * 2 ^ 149 - p| = |scaled c * 2 ^ 149 - p| →
          (fmul a b).toNat % 2 = 0)) ∧
    ((2 ^ 277 - 2 ^ 252) * 2 ^ 149 ≤ |p| → isInf (fmul a b) = true)

/-- R170: NaN operands give a NaN, invalid operations give a NaN, and infinities otherwise behave as limits: with a finite
number, with each other, and as factors. -/
def Obligations.NaNAndInfinityBehaveAsTheStandardSays : Prop :=
  (∀ a b : Word, isNaN a = true ∨ isNaN b = true →
    isNaN (fadd a b) = true ∧ isNaN (fsub a b) = true ∧ isNaN (fmul a b) = true) ∧
  isNaN (fadd 0x7F800000#32 0xFF800000#32) = true ∧ isNaN (fsub 0x7F800000#32 0x7F800000#32) = true ∧
  isNaN (fsub 0xFF800000#32 0xFF800000#32) = true ∧
  (∀ a b : Word, isZero a = true → isInf b = true → isNaN (fmul a b) = true ∧ isNaN (fmul b a) = true) ∧
  (∀ a b : Word, isInf a = true → isFinite b = true →
    fadd a b = a ∧ fadd b a = a ∧ fsub a b = a ∧ fsub b a = fneg a) ∧
  (∀ a : Word, isInf a = true → fadd a a = a ∧ fsub a (fneg a) = a ∧ isNaN (fadd a (fneg a)) = true ∧
    ∀ b : Word, isInf b = true → b = a ∨ b = fneg a) ∧
  (∀ a b : Word, isInf a = true → isNaN b = false → isZero b = false →
    isInf (fmul a b) = true ∧ isInf (fmul b a) = true ∧ signBit (fmul a b) = (signBit a != signBit b) ∧
      signBit (fmul b a) = (signBit a != signBit b))

/-- R172: the sign of a zero result. -/
def Obligations.SignedZerosFollowTheRounding : Prop :=
  fadd 0x00000000#32 0x00000000#32 = 0x00000000#32 ∧ fadd 0x80000000#32 0x80000000#32 = 0x80000000#32 ∧
  fadd 0x00000000#32 0x80000000#32 = 0x00000000#32 ∧ fadd 0x80000000#32 0x00000000#32 = 0x00000000#32 ∧
  (∀ a : Word, isFinite a = true → fsub a a = 0x00000000#32) ∧
  (∀ a b : Word, isFinite a = true → isFinite b = true → isZero a = false → isZero b = false →
    scaled a + scaled b = 0 → fadd a b = 0x00000000#32) ∧
  (∀ a b : Word, isFinite a = true → isFinite b = true → isZero (fmul a b) = true →
    signBit (fmul a b) = (signBit a != signBit b)) ∧
  (∀ a b : Word, isZero a = false → isNaN a = false → isZero b = true → fadd a b = a)

/-- R168: `fneg` flips bit 31 and nothing else, of every pattern. -/
def Obligations.NegationFlipsTheSignBitOnly : Prop :=
  ∀ a : Word, signBit (fneg a) = (!signBit a) ∧ expField (fneg a) = expField a ∧ fracField (fneg a) = fracField a

/-- R169: `ffloor` is the greatest integer not above a finite operand, exactly, with the sign of a zero kept; infinities
stay, a NaN gives a NaN, and from `2^23` on every value is its own floor. -/
def Obligations.FloorIsTheGreatestIntegerNotAbove : Prop :=
  (∀ a : Word, isFinite a = true →
    isFinite (ffloor a) = true ∧ (2 ^ 149 : Int) ∣ scaled (ffloor a) ∧
      scaled (ffloor a) ≤ scaled a ∧ scaled a < scaled (ffloor a) + 2 ^ 149 ∧
      (2 ^ 172 ≤ |scaled a| → ffloor a = a) ∧
      (0 < scaled a → scaled a < 2 ^ 149 → ffloor a = 0x00000000#32) ∧
      (-(2 ^ 149) < scaled a → scaled a < 0 → ffloor a = 0xBF800000#32)) ∧
  ffloor 0x00000000#32 = 0x00000000#32 ∧ ffloor 0x80000000#32 = 0x80000000#32 ∧
  ffloor 0x7F800000#32 = 0x7F800000#32 ∧ ffloor 0xFF800000#32 = 0xFF800000#32 ∧
  ∀ a : Word, isNaN a = true → isNaN (ffloor a) = true

/-! The noise kernel -/

/-- R111, R164: the lattice index of a finite coordinate is its mathematical floor modulo 256, never negative. -/
def Obligations.LatticeIndexIsTheFloorModulo256 : Prop :=
  ∀ (d : Nat) (c : Word), isFinite c = true →
    (latticeIndex d c : Int) = ⌊(scaled c : ℚ) / 2 ^ 149⌋ % 256

/-- R112: the fractional part of a finite coordinate lies in `[0, 1]` and is no negative zero; it is exact at and above
zero and at and below `-0.5`, and it is 1.0 from `-2^-25` up to, but not at, zero. -/
def Obligations.FractionalPartIsBetweenZeroAndOne : Prop :=
  ∀ c : Word, isFinite c = true →
    isFinite (frac c) = true ∧ signBit (frac c) = false ∧ 0 ≤ scaled (frac c) ∧ scaled (frac c) ≤ 2 ^ 149 ∧
    (0 ≤ scaled c ∨ scaled c ≤ -(2 ^ 148) → scaled (frac c) = scaled c - scaled (ffloor c)) ∧
    (-(2 ^ 124) ≤ scaled c → scaled c < 0 → frac c = 0x3F800000#32)

/-- R113: the values of FADE that the rule gives, and a NaN for a NaN. -/
def Obligations.FadeTakesTheValuesOfTheRule : Prop :=
  fade 0x00000000#32 = 0x00000000#32 ∧ fade 0x3F800000#32 = 0x3F800000#32 ∧ fade 0x3F000000#32 = 0x3F000000#32 ∧
  fade 0x3E800000#32 = 0x3DD40000#32 ∧ fade 0x3F400000#32 = 0x3F658000#32 ∧
  fade 0x00000001#32 = 0x00000000#32 ∧ fade 0x3F7FFFFF#32 = 0x3F800006#32 ∧
  ∀ t : Word, isNaN t = true → isNaN (fade t) = true

/-- R114: HASH reduces its index modulo 256, so it wraps from 255 to 0. -/
def Obligations.HashReducesItsIndexModulo256 : Prop :=
  (∀ (perm : PermTable) (i : Nat) (h : i < 256), hash perm i = perm[i].toNat) ∧
  ∀ (perm : PermTable) (i : Nat), hash perm (i + 256) = hash perm i ∧ hash perm i < 256

/-- R115, R162: the six values are the sums of the rule, unreduced, and lie in 0..510; a datapath that keeps each of them
in 8 bits with wrap-around makes the same look-ups. -/
def Obligations.HashChainFitsNineBitsAndWrapsInEight : Prop :=
  ∀ (perm : PermTable) (X Y Z : Nat), X < 256 → Y < 256 → Z < 256 →
    let c := chain perm X Y Z
    let A := (hash perm X + Y) % 256
    let B := (hash perm ((X + 1) % 256) + Y) % 256
    (c.A = hash perm X + Y ∧ c.AA = hash perm c.A + Z ∧ c.AB = hash perm (c.A + 1) + Z ∧
      c.B = hash perm (X + 1) + Y ∧ c.BA = hash perm c.B + Z ∧ c.BB = hash perm (c.B + 1) + Z) ∧
    (c.A ≤ 510 ∧ c.AA ≤ 510 ∧ c.AB ≤ 510 ∧ c.B ≤ 510 ∧ c.BA ≤ 510 ∧ c.BB ≤ 510) ∧
    (∀ j : Nat,
      hash perm ((hash perm A + Z + j) % 256) = hash perm (c.AA + j) ∧
      hash perm ((hash perm ((A + 1) % 256) + Z + j) % 256) = hash perm (c.AB + j) ∧
      hash perm ((hash perm B + Z + j) % 256) = hash perm (c.BA + j) ∧
      hash perm ((hash perm ((B + 1) % 256) + Z + j) % 256) = hash perm (c.BB + j))

/-- R116: the full table of GRAD, by the low four bits of the table entry. -/
def Obligations.GradientFollowsItsTable : Prop :=
  ∀ (hv : Nat) (gx gy gz : Word),
    (hv % 16 = 0 → grad hv gx gy gz = fadd gx gy) ∧ (hv % 16 = 1 → grad hv gx gy gz = fadd (fneg gx) gy) ∧
    (hv % 16 = 2 → grad hv gx gy gz = fadd gx (fneg gy)) ∧
    (hv % 16 = 3 → grad hv gx gy gz = fadd (fneg gx) (fneg gy)) ∧
    (hv % 16 = 4 → grad hv gx gy gz = fadd gx gz) ∧ (hv % 16 = 5 → grad hv gx gy gz = fadd (fneg gx) gz) ∧
    (hv % 16 = 6 → grad hv gx gy gz = fadd gx (fneg gz)) ∧
    (hv % 16 = 7 → grad hv gx gy gz = fadd (fneg gx) (fneg gz)) ∧
    (hv % 16 = 8 → grad hv gx gy gz = fadd gy gz) ∧ (hv % 16 = 9 → grad hv gx gy gz = fadd (fneg gy) gz) ∧
    (hv % 16 = 10 → grad hv gx gy gz = fadd gy (fneg gz)) ∧
    (hv % 16 = 11 → grad hv gx gy gz = fadd (fneg gy) (fneg gz)) ∧
    (hv % 16 = 12 → grad hv gx gy gz = fadd gy gx) ∧ (hv % 16 = 13 → grad hv gx gy gz = fadd (fneg gy) gz) ∧
    (hv % 16 = 14 → grad hv gx gy gz = fadd gy (fneg gx)) ∧
    (hv % 16 = 15 → grad hv gx gy gz = fadd (fneg gy) (fneg gz))

/-- R119: with the weight `+0` a LERP returns its near value, where that is a non-zero number and `b - a` is finite. -/
def Obligations.LerpAtWeightZeroIsTheNearValue : Prop :=
  ∀ a b : Word, isFinite a = true → isZero a = false → isFinite (fsub b a) = true → lerp 0x00000000#32 a b = a

/-- R122: the sample of a point with a non-finite coordinate is a NaN, for every draw, and so is what the interpolation
gives before the draw replaces it (log entries 4 to 6). -/
def Obligations.NonFiniteCoordinateGivesANaN : Prop :=
  ∀ (d : Nat) (perm : PermTable) (x y z : Word),
    isFinite x = false ∨ isFinite y = false ∨ isFinite z = false →
    isNaN (evaluate d perm x y z) = true ∧ isNaN (interpolate d perm x y z) = true

/-- R170: the draw behind a NaN is held to exponent field 255 and a non-zero fraction, and can be every such pattern. -/
def Obligations.NanDrawIsAnyNaNAndNothingElse : Prop :=
  (∀ draw : Word, expField (nanOf draw) = 255 ∧ fracField (nanOf draw) ≠ 0) ∧
  ∀ p : Word, expField p = 255 → fracField p ≠ 0 → ∃ draw, nanOf draw = p

/-- R110: on finite coordinates EVALUATE is a function of the table and the coordinates; no draw reaches it. -/
def Obligations.EvaluateIsPureOnFiniteCoordinates : Prop :=
  ∀ (d d' : Nat) (perm : PermTable) (x y z : Word),
    isFinite x = true → isFinite y = true → isFinite z = true → evaluate d perm x y z = evaluate d' perm x y z

/-- R123, with R111 to R120: the sample of three finite coordinates, in the float operations, the table and GRAD. The indices
are the floors modulo 256 (R111); `FADE` is R113, the chain R115, the offsets `x1`, `y1`, `z1` R117, the pairing of the
eight corners with the chain R118, and the seven LERPs, along x, then y, then z, are R119 and R120. No draw reaches it. -/
def Obligations.EvaluateIsTheSevenLerpsOfTheEightGradients : Prop :=
  ∀ (d : Nat) (perm : PermTable) (x y z : Word) (X Y Z : Nat),
    isFinite x = true → isFinite y = true → isFinite z = true →
    (X : Int) = scaled x / 2 ^ 149 % 256 → (Y : Int) = scaled y / 2 ^ 149 % 256 →
    (Z : Int) = scaled z / 2 ^ 149 % 256 →
    let FADE := fun t => fmul (fmul (fmul t t) t)
      (fadd (fmul t (fsub (fmul t 0x40C00000#32) 0x41700000#32)) 0x41200000#32)
    let LERP := fun t a b => fadd a (fmul t (fsub b a))
    let xf := fsub x (ffloor x)
    let yf := fsub y (ffloor y)
    let zf := fsub z (ffloor z)
    let x1 := fsub xf 0x3F800000#32
    let y1 := fsub yf 0x3F800000#32
    let z1 := fsub zf 0x3F800000#32
    let A := hash perm X + Y
    let AA := hash perm A + Z
    let AB := hash perm (A + 1) + Z
    let B := hash perm (X + 1) + Y
    let BA := hash perm B + Z
    let BB := hash perm (B + 1) + Z
    evaluate d perm x y z =
      LERP (FADE zf)
        (LERP (FADE yf)
          (LERP (FADE xf) (grad (hash perm AA) xf yf zf) (grad (hash perm BA) x1 yf zf))
          (LERP (FADE xf) (grad (hash perm AB) xf y1 zf) (grad (hash perm BB) x1 y1 zf)))
        (LERP (FADE yf)
          (LERP (FADE xf) (grad (hash perm (AA + 1)) xf yf z1) (grad (hash perm (BA + 1)) x1 yf z1))
          (LERP (FADE xf) (grad (hash perm (AB + 1)) xf y1 z1) (grad (hash perm (BB + 1)) x1 y1 z1)))

/-- R174: three finite coordinates give a finite sample, with any table. -/
def Obligations.FiniteCoordinatesGiveAFiniteSample : Prop :=
  ∀ (d : Nat) (perm : PermTable) (x y z : Word),
    isFinite x = true → isFinite y = true → isFinite z = true → isFinite (evaluate d perm x y z) = true

/-- R125: coordinates that differ by a multiple of 256 give the same bits, on each axis. -/
def Obligations.NoiseHasPeriod256OnEachAxis : Prop :=
  ∀ (d : Nat) (perm : PermTable) (x x' y z : Word) (m : Int),
    isFinite x = true → isFinite x' = true → scaled x' = scaled x + m * (256 * 2 ^ 149) →
    evaluate d perm x' y z = evaluate d perm x y z ∧ evaluate d perm y x' z = evaluate d perm y x z ∧
      evaluate d perm y z x' = evaluate d perm y z x

/-- R124: at integer-valued coordinates the fractional parts and the weights are `+0`, the near corner's gradient is a
zero, and so is the sample, with any table. -/
def Obligations.NoiseVanishesAtLatticePoints : Prop :=
  ∀ (d : Nat) (perm : PermTable) (x y z : Word),
    isFinite x = true → isFinite y = true → isFinite z = true →
    (2 ^ 149 : Int) ∣ scaled x → (2 ^ 149 : Int) ∣ scaled y → (2 ^ 149 : Int) ∣ scaled z →
    (frac x = 0x00000000#32 ∧ frac y = 0x00000000#32 ∧ frac z = 0x00000000#32) ∧
    (fade (frac x) = 0x00000000#32 ∧ fade (frac y) = 0x00000000#32 ∧ fade (frac z) = 0x00000000#32) ∧
    isZero (grad (hash perm (chain perm (latticeIndex d x) (latticeIndex d y) (latticeIndex d z)).AA)
      0x00000000#32 0x00000000#32 0x00000000#32) = true ∧
    isZero (evaluate d perm x y z) = true

/-- R126: at the origin the sample and the near corner's gradient `GRAD(HASH(AA), +0, +0, +0)` are equal as numbers, both
zero, with any table. -/
def Obligations.OriginGivesTheNearCornersGradient : Prop :=
  ∀ (d : Nat) (perm : PermTable),
    let near := grad (hash perm (hash perm (hash perm 0 + 0) + 0)) 0x00000000#32 0x00000000#32 0x00000000#32
    isZero near = true ∧ isZero (evaluate d perm 0x00000000#32 0x00000000#32 0x00000000#32) = true

/-! PROCESS -/

/-- R203, R206: the fault BadDescriptor, for the lowest buffer whose end passes the address space, does fault entry and
nothing else. The window it opens, the model's own, is empty (log entry 11). -/
def Obligations.BadDescriptorFaultsOnTheLowestBuffer : Prop :=
  ∀ (s : State) (x y z o : Descriptor) (n : Word) (b : Nat) (d : Descriptor),
    [x, y, z, o][b]? = some d → 2 ^ s.cfg.aw < d.base.toNat + d.len.toNat →
    (∀ b' < b, ∀ d', [x, y, z, o][b']? = some d' → d'.base.toNat + d'.len.toNat ≤ 2 ^ s.cfg.aw) →
    ∃ t, exec (.process x y z o n) s = .next t ∧ t.faulted = true ∧ t.cause = 2#4 ∧ t.finfo.toNat = b ∧
      t.cmdbuf = [] ∧ Posted s t 0x00000202#32 ∧ t.windows = s.windows ++ [[]] ∧ t.perm = s.perm ∧
      t.mem = s.mem ∧ t.draws = s.draws ∧ t.host = s.host ∧ t.cfg = s.cfg

/-- R204, R206: the fault BufferTooShort, for the lowest buffer shorter than the count, where every descriptor is well
formed. The window it opens, the model's own, is empty (log entry 11). -/
def Obligations.ShortBufferFaultsOnTheLowestBuffer : Prop :=
  ∀ (s : State) (x y z o : Descriptor) (n : Word) (b : Nat) (d : Descriptor),
    (∀ e ∈ [x, y, z, o], e.base.toNat + e.len.toNat ≤ 2 ^ s.cfg.aw) →
    [x, y, z, o][b]? = some d → d.len.toNat < n.toNat →
    (∀ b' < b, ∀ d', [x, y, z, o][b']? = some d' → n.toNat ≤ d'.len.toNat) →
    ∃ t, exec (.process x y z o n) s = .next t ∧ t.faulted = true ∧ t.cause = 3#4 ∧ t.finfo.toNat = b ∧
      t.cmdbuf = [] ∧ Posted s t 0x00000302#32 ∧ t.windows = s.windows ++ [[]] ∧ t.perm = s.perm ∧
      t.mem = s.mem ∧ t.draws = s.draws ∧ t.host = s.host ∧ t.cfg = s.cfg

/-- R205, R206: the fault BufferOverlap, for the lowest input whose accessed range meets the output's, where every
descriptor is well formed and long enough and the count is not zero. The window it opens, the model's own, is empty (log
entry 11). -/
def Obligations.OverlapFaultsOnTheLowestInput : Prop :=
  ∀ (s : State) (x y z o : Descriptor) (n : Word) (b : Nat) (d : Descriptor),
    (∀ e ∈ [x, y, z, o], e.base.toNat + e.len.toNat ≤ 2 ^ s.cfg.aw ∧ n.toNat ≤ e.len.toNat) → 0 < n.toNat →
    [x, y, z][b]? = some d →
    d.base.toNat < o.base.toNat + n.toNat → o.base.toNat < d.base.toNat + n.toNat →
    (∀ b' < b, ∀ d', [x, y, z][b']? = some d' →
      d'.base.toNat + n.toNat ≤ o.base.toNat ∨ o.base.toNat + n.toNat ≤ d'.base.toNat) →
    ∃ t, exec (.process x y z o n) s = .next t ∧ t.faulted = true ∧ t.cause = 4#4 ∧ t.finfo.toNat = b ∧
      t.cmdbuf = [] ∧ Posted s t 0x00000402#32 ∧ t.windows = s.windows ++ [[]] ∧ t.perm = s.perm ∧
      t.mem = s.mem ∧ t.draws = s.draws ∧ t.host = s.host ∧ t.cfg = s.cfg

/-- R142, R143: a PROCESS whose preconditions hold completes: each of the first `n` output cells holds EVALUATE of the
three input cells as they were at the start, every other byte of memory and the table are unchanged, and the response
`0x00000002` is posted. The window it opens, the model's own, is its accessed ranges (log entry 11); the numbers of the draws, which
`sampleOf` hands to EVALUATE, are the model's too (log entry 4). -/
def Obligations.ProcessWritesTheNoiseOfItsInputs : Prop :=
  ∀ (s : State) (x y z o : Descriptor) (n : Word),
    s.mem.wf → ProcessLegal s.cfg x y z o n → AccessesBacked s.cfg x y z o n →
    ∃ t, exec (.process x y z o n) s = .next t ∧
      (∀ k < n.toNat, readCell t.mem (elementCell o k) = sampleOf s x y z k) ∧
      (∀ a, (∀ k < n.toNat, a / 4 ≠ elementCell o k) → readByte t.mem a = readByte s.mem a) ∧
      t.perm = s.perm ∧ Posted s t 0x00000002#32 ∧ t.windows = s.windows ++ [accessedRanges x y z o n] ∧
      t.faulted = s.faulted ∧ t.cause = s.cause ∧ t.finfo = s.finfo ∧ t.cmdbuf = s.cmdbuf ∧ t.host = s.host ∧ t.cfg = s.cfg

/-- R146 (a): with a count of zero and well-formed descriptors PROCESS completes, whatever overlaps and whatever is
backed, and leaves the memory as it was. The window it opens, the model's own, holds no cell (log entry 11). -/
def Obligations.ProcessOfZeroSamplesAccessesNothing : Prop :=
  ∀ (s : State) (x y z o : Descriptor),
    (∀ d ∈ [x, y, z, o], d.base.toNat + d.len.toNat ≤ 2 ^ s.cfg.aw) →
    ∃ t, exec (.process x y z o 0#32) s = .next t ∧ t.mem = s.mem ∧ t.perm = s.perm ∧ t.faulted = s.faulted ∧
      t.cause = s.cause ∧ t.finfo = s.finfo ∧ t.cmdbuf = s.cmdbuf ∧ Responded s t 0x00000002#32 ∧
      (∃ window, t.windows = s.windows ++ [window] ∧ ∀ r ∈ window, ∀ cell, ¬(r.first ≤ cell ∧ cell < r.past)) ∧
      t.draws = s.draws ∧ t.host = s.host ∧ t.cfg = s.cfg

/-- R46, R219: a PROCESS that passes its checks and needs a cell outside `BACKED` never ends: the model takes no step,
and names an unbacked cell of the access set (the name is the model's, log entry 8). -/
def Obligations.ProcessOnAnUnbackedCellTakesNoStep : Prop :=
  ∀ (s : State) (x y z o : Descriptor) (n : Word),
    ProcessLegal s.cfg x y z o n → ¬ AccessesBacked s.cfg x y z o n →
    ∃ cell, exec (.process x y z o n) s = .refused (.cellNotBacked cell) ∧ cellBacked s.cfg cell = false ∧
      ∃ d ∈ [x, y, z, o], ∃ k < n.toNat, cell = elementCell d k

/-- R145, R49: the samples of a legal PROCESS may be processed in any order; the state they leave is the same. -/
def Obligations.SamplesMayRunInAnyOrder : Prop :=
  ∀ (s : State) (x y z o : Descriptor) (n : Word) (ks : List Nat),
    s.mem.wf → ProcessLegal s.cfg x y z o n → AccessesBacked s.cfg x y z o n → ks.Perm (List.range n.toNat) →
    processSamples x y z o ks s = processSamples x y z o (List.range n.toNat) s

/-- R147, R208: a PROCESS that ends in a fault has changed neither the table nor the memory, nor anything but what fault
entry writes. -/
def Obligations.FaultingProcessHasDoneNothingElse : Prop :=
  ∀ (s t : State) (x y z o : Descriptor) (n : Word),
    s.faulted = false → exec (.process x y z o n) s = .next t → t.faulted = true →
    t.mem = s.mem ∧ t.perm = s.perm ∧ t.draws = s.draws ∧ t.host = s.host ∧ t.cfg = s.cfg ∧ t.cmdbuf = [] ∧
      t.windows = s.windows ++ [[]] ∧ (t.cause = 2#4 ∨ t.cause = 3#4 ∨ t.cause = 4#4)

/-- R144: whatever a PROCESS does, the table, the host and the configuration are untouched, and no byte of memory outside
the first `n` output cells changes. -/
def Obligations.ProcessTouchesOnlyItsOutputCells : Prop :=
  ∀ (s t : State) (x y z o : Descriptor) (n : Word),
    s.mem.wf → exec (.process x y z o n) s = .next t →
    t.perm = s.perm ∧ t.host = s.host ∧ t.cfg = s.cfg ∧
      ∀ a, (∀ k < n.toNat, a / 4 ≠ elementCell o k) → readByte t.mem a = readByte s.mem a

/-! The whole machine -/

/-- R142: no command faults the model: the checks come before the accesses, so no access leaves the address space. -/
def Obligations.NoCommandLeavesTheAddressSpace : Prop :=
  ∀ (i : Instr) (s : State) (r : Fault), exec i s ≠ .fault r

/-- R159, R245: where every cell is backed, every command answers a next state. With room in the queue it ends there, its
response at the back of the queue; with a full queue R28 and R219 (2) say that it does not end, and that next state, in
which its response waits in the model's `rspHold`, is the model's choice (log entry 8). -/
def Obligations.EveryCommandEndsOnBackedMemory : Prop :=
  ∀ (i : Instr) (s : State), (∀ a, cellBacked s.cfg a = true) →
    ∃ t, exec i s = .next t ∧
      (s.hasRoom = true → t.rspHold = s.rspHold ∧ ∃ w, t.rspq = s.rspq ++ [w]) ∧
      (s.hasRoom = false → t.rspq = s.rspq ∧ t.rspHold ≠ none)

/-- R69, R70: a command posts exactly one response: the low byte of its header, with the cause of its fault if it
faulted. -/
def Obligations.EveryCommandPostsOneResponse : Prop :=
  ∀ (i : Instr) (s t : State), s.faulted = false → s.cause = 0#4 → exec i s = .next t →
    Responded s t (BitVec.ofNat 32 (t.cause.toNat * 0x100 + (headerOp ((encode i).headD 0#32)).toNat))

/-- R28: a command whose response finds the queue full waits to end; the host's next taking of a response lets it end, its
response going to the back. That the command's other effects are seen while it waits is the model's (log entry 8). -/
def Obligations.FullQueueHoldsTheCommandUntilAResponseIsTaken : Prop :=
  ∀ (i : Instr) (s t : State) (front : Word) (more : List Word) (rest : List HostEvent),
    s.hasRoom = false → s.rspq = front :: more → s.host = .takeResponse :: rest → exec i s = .next t →
    ∃ w u, t.rspHold = some w ∧ t.rspq = s.rspq ∧ t.cmdReady = false ∧ step t = .next u ∧
      u.rspq = more ++ [w] ∧ u.rspHold = none ∧ u.windows = t.windows.tail ∧ u.host = rest ∧
      u.perm = t.perm ∧ u.mem = t.mem ∧ u.faulted = t.faulted ∧ u.cause = t.cause ∧ u.finfo = t.finfo ∧ u.cmdbuf = t.cmdbuf

/-- R28, R74: taking a response removes the front word of the queue and touches nothing else of the core. It closes the
first of the model's windows (log entry 11). -/
def Obligations.TakingAResponseRemovesTheFrontWord : Prop :=
  ∀ (s : State) (front : Word) (more : List Word) (rest : List HostEvent),
    s.host = .takeResponse :: rest → s.rspq = front :: more → s.rspHold = none →
    s.rspValid = true ∧ s.rspData = some front ∧
    step s = .next { s with host := rest, rspq := more, windows := s.windows.tail }

/-- R209: a FAULTED core is inert. Only reset leaves it; no other step changes the table, the status fields or the command
buffer, none appends a response, and only a host's own store changes the memory. -/
def Obligations.FaultedCoreIsInertUntilReset : Prop :=
  ∀ s t : State, s.faulted = true → s.rspHold = none → step s = .next t → s.host.head? ≠ some .reset →
    t.faulted = true ∧ t.cause = s.cause ∧ t.finfo = s.finfo ∧ t.perm = s.perm ∧ t.cmdbuf = s.cmdbuf ∧
      t.rspHold = none ∧
      (t.rspq = s.rspq ∧ t.windows = s.windows ∨ t.rspq = s.rspq.tail ∧ t.windows = s.windows.tail) ∧
      ((∀ cell value, s.host.head? ≠ some (.store cell value)) → t.mem = s.mem)

/-- R240, R35: reset leaves the core at its reset values, drops the responses not taken, posts none, and does not touch
the sample memory. -/
def Obligations.ResetRestoresTheCoreAndKeepsTheMemory : Prop :=
  ∀ (s : State) (rest : List HostEvent), s.host = .reset :: rest →
    ∃ t, step s = .next t ∧ t.faulted = false ∧ t.cause = 0#4 ∧ t.finfo = 0#32 ∧ t.cmdbuf = [] ∧ t.rspq = [] ∧
      t.rspHold = none ∧ t.windows = [] ∧ t.perm = buildPermutation 0#32 ∧ t.mem = s.mem ∧ t.host = rest ∧ t.cfg = s.cfg

/-- R240: a PROCESS that reset cuts short leaves each of its output cells with its old value or its new sample, every
other byte unchanged, and the core at its reset values with no response. Which cells are new is a draw (log entry 10). -/
def Obligations.ResetDuringProcessLeavesOldOrNewCells : Prop :=
  ∀ (s : State) (w : Word) (rest : List HostEvent) (x y z o : Descriptor) (n : Word),
    s.host = .wordCutByReset w :: rest → s.faulted = false → s.rspHold = none → s.mem.wf →
    decode (s.cmdbuf ++ [w]) = .ok (.process x y z o n, []) → ProcessLegal s.cfg x y z o n →
    ∃ t, step s = .next t ∧ t.faulted = false ∧ t.cause = 0#4 ∧ t.finfo = 0#32 ∧ t.cmdbuf = [] ∧ t.rspq = [] ∧
      t.rspHold = none ∧ t.windows = [] ∧ t.perm = buildPermutation 0#32 ∧ t.host = rest ∧ t.cfg = s.cfg ∧
      (∀ k < n.toNat, readCell t.mem (elementCell o k) = readCell s.mem (elementCell o k) ∨
        readCell t.mem (elementCell o k) = sampleOf s x y z k) ∧
      ∀ a, (∀ k < n.toNat, a / 4 ≠ elementCell o k) → readByte t.mem a = readByte s.mem a

/-- R100: the table is written by constructions only, and only through BUILD_PERMUTATION: a step leaves it as it was, or
built from a seed. -/
def Obligations.OnlyConstructionsWriteTheTable : Prop :=
  ∀ s t : State, step s = .next t → t.perm ≠ s.perm →
    (∃ rest, s.host = .reset :: rest ∧ t.perm = buildPermutation 0#32) ∨
    (∃ w rest, s.host = .wordCutByReset w :: rest ∧ t.perm = buildPermutation 0#32) ∨
    (∃ w rest more, s.host = .word w :: rest ∧ decode (s.cmdbuf ++ [w]) = .ok (.construct, more) ∧
      t.perm = buildPermutation 0#32) ∨
    (∃ w rest more seed, s.host = .word w :: rest ∧ decode (s.cmdbuf ++ [w]) = .ok (.constructS seed, more) ∧
      t.perm = buildPermutation seed)

/-- R41: only a PROCESS, or the host itself, changes the sample memory. -/
def Obligations.OnlyProcessAndTheHostChangeTheMemory : Prop :=
  ∀ s t : State, step s = .next t → t.mem ≠ s.mem →
    (∃ cell value rest, s.host = .store cell value :: rest) ∨
    (∃ w rest more x y z o n, (s.host = .word w :: rest ∨ s.host = .wordCutByReset w :: rest) ∧
      decode (s.cmdbuf ++ [w]) = .ok (.process x y z o n, more))

/-- A step takes the host's first event off its list, which is the model's own field (log entry 1), and never changes the
configuration (R9, log entry 3). -/
def Obligations.StepConsumesOneEventAndKeepsTheConfiguration : Prop :=
  ∀ s t : State, step s = .next t → (∃ event, s.host = event :: t.host) ∧ t.cfg = s.cfg

/-- R51, hazards H1 and H2: a host's store completes outside the windows of the commands whose responses it has not taken,
replacing one cell and nothing else, and is refused inside them. The window that a PROCESS opens, `accessedRanges`
(ProcessWritesTheNoiseOfItsInputs), holds exactly the cells it accesses (R48). The windows and the refusal are the model's
form of the obligation (log entry 11). -/
def Obligations.HostStoresOnlyOutsideTheWindows : Prop :=
  (∀ (x y z o : Descriptor) (n : Word) (cell : Nat),
    (∃ r ∈ accessedRanges x y z o n, r.first ≤ cell ∧ cell < r.past) ↔
      ∃ d ∈ [x, y, z, o], ∃ k < n.toNat, cell = elementCell d k) ∧
  ∀ (s : State) (cell value : Word) (rest : List HostEvent), s.host = .store cell value :: rest →
    ((∃ window ∈ s.windows, ∃ r ∈ window, r.first ≤ cell.toNat ∧ cell.toNat < r.past) →
      step s = .refused (.storeRaces cell.toNat)) ∧
    ((∀ window ∈ s.windows, ∀ r ∈ window, cell.toNat < r.first ∨ r.past ≤ cell.toNat) →
      cell.toNat < 2 ^ s.cfg.aw → cellBacked s.cfg cell.toNat = true →
      step s = .next { s with host := rest, mem := writeCell s.mem cell.toNat value })

/-- R43: a cell is little-endian in its four bytes. -/
def Obligations.CellsAreLittleEndian : Prop :=
  ∀ (m : Memory) (a : Nat) (v : Word), m.wf →
    (readCell m a).toNat =
      (readByte m (4 * a)).toNat + 2 ^ 8 * (readByte m (4 * a + 1)).toNat +
        2 ^ 16 * (readByte m (4 * a + 2)).toNat + 2 ^ 24 * (readByte m (4 * a + 3)).toNat ∧
    (∀ i < 4, (readByte (writeCell m a v) (4 * a + i)).toNat = v.toNat / 2 ^ (8 * i) % 2 ^ 8)

/-- The invariant holds right after reset (R21, R26, R27, R35). -/
def Obligations.InvariantHoldsAfterReset : Prop := State.reset.Inv

/-- Every step keeps the invariant (R21, R26, R27, R28): the table a permutation, the memory in its canonical form and
inside the address space, the status fields legal, the command buffer an incomplete packet, and the queue within its
capacity. -/
def Obligations.EveryStepKeepsTheInvariant : Prop :=
  ∀ s t : State, s.Inv → step s = .next t → t.Inv
end

