-- ==== Sys2Proof/Laws/Float.lean ====
section
/-! SUPPORT. The laws of the binary32 primitives: the fields of a pattern, and what rounding and packing a magnitude
give. Every lemma on `fadd`, `fmul` or `ffloor` can cite these instead of unfolding `packMagnitude`. -/

namespace Sys2Proof.Machine

set_option exponentiation.threshold 300

theorem expField_lt (a : Word) : expField a < 256 := Nat.mod_lt _ (by decide)

theorem fracField_lt (a : Word) : fracField a < 2 ^ 23 := Nat.mod_lt _ (by decide)

/-- A pattern is its sign, its exponent field and its fraction field (R165). -/
theorem toNat_eq_fields (a : Word) :
    a.toNat = (if signBit a then 2 ^ 31 else 0) + (expField a * 2 ^ 23 + fracField a) := by
  have := a.isLt
  unfold signBit expField fracField
  by_cases h : 2 ^ 31 ≤ a.toNat
  · rw [if_pos (by simpa using h)]; omega
  · rw [if_neg (by simpa using h)]; omega

/-- Patterns with the same sign, exponent and fraction are equal. -/
theorem word_ext {a b : Word} (hs : signBit a = signBit b) (he : expField a = expField b)
    (hf : fracField a = fracField b) : a = b := by
  apply BitVec.eq_of_toNat_eq
  rw [toNat_eq_fields a, toNat_eq_fields b, hs, he, hf]

/-- The magnitude that 31 low bits stand for, in units of `2^-149` (R165). -/
def bitsMagnitude (b : Nat) : Nat :=
  if b / 2 ^ 23 = 0 then b else (2 ^ 23 + b % 2 ^ 23) * 2 ^ (b / 2 ^ 23 - 1)

/-- The low 31 bits of a pattern. -/
def lowBits (a : Word) : Nat := a.toNat % 2 ^ 31

theorem magnitude_eq_bitsMagnitude (a : Word) : magnitude a = bitsMagnitude (lowBits a) := by
  have h1 : expField a = lowBits a / 2 ^ 23 := by unfold expField lowBits; omega
  have h2 : fracField a = lowBits a % 2 ^ 23 := by unfold fracField lowBits; omega
  unfold magnitude bitsMagnitude
  rw [h1, h2]
  split
  · next h => omega
  · rfl

theorem isFinite_iff_lowBits (a : Word) : isFinite a = true ↔ lowBits a < 0x7F800000 := by
  have : expField a = lowBits a / 2 ^ 23 := by unfold expField lowBits; omega
  have hb : lowBits a < 2 ^ 31 := Nat.mod_lt _ (by decide)
  unfold isFinite
  rw [decide_eq_true_iff]
  omega

theorem isInf_iff_lowBits (a : Word) : isInf a = true ↔ lowBits a = 0x7F800000 := by
  have h1 : expField a = lowBits a / 2 ^ 23 := by unfold expField lowBits; omega
  have h2 : fracField a = lowBits a % 2 ^ 23 := by unfold fracField lowBits; omega
  unfold isInf
  rw [Bool.and_eq_true, decide_eq_true_iff, decide_eq_true_iff]
  omega

theorem isNaN_iff_lowBits (a : Word) : isNaN a = true ↔ 0x7F800000 < lowBits a := by
  have h1 : expField a = lowBits a / 2 ^ 23 := by unfold expField lowBits; omega
  have h2 : fracField a = lowBits a % 2 ^ 23 := by unfold fracField lowBits; omega
  have hb : lowBits a < 2 ^ 31 := Nat.mod_lt _ (by decide)
  unfold isNaN
  rw [Bool.and_eq_true, decide_eq_true_iff, decide_eq_true_iff]
  omega

theorem isZero_iff_lowBits (a : Word) : isZero a = true ↔ lowBits a = 0 := by
  have h1 : expField a = lowBits a / 2 ^ 23 := by unfold expField lowBits; omega
  have h2 : fracField a = lowBits a % 2 ^ 23 := by unfold fracField lowBits; omega
  unfold isZero
  rw [Bool.and_eq_true, decide_eq_true_iff, decide_eq_true_iff]
  omega

/-- A finite pattern is neither an infinity nor a NaN. -/
theorem isFinite_iff (a : Word) : isFinite a = true ↔ isInf a = false ∧ isNaN a = false := by
  rw [isFinite_iff_lowBits, ← Bool.not_eq_true, ← Bool.not_eq_true, isInf_iff_lowBits, isNaN_iff_lowBits]
  omega

theorem signBit_withSign (neg : Bool) {b : Nat} (hb : b < 2 ^ 31) : signBit (withSign neg b) = neg := by
  unfold signBit withSign
  cases neg <;> simp only [BitVec.toNat_ofNat, if_true, Bool.false_eq_true, if_false]
  · rw [decide_eq_false_iff_not]; omega
  · rw [decide_eq_true_iff]; omega

theorem lowBits_withSign (neg : Bool) {b : Nat} (hb : b < 2 ^ 31) : lowBits (withSign neg b) = b := by
  unfold lowBits withSign
  cases neg <;> simp only [BitVec.toNat_ofNat, if_true, Bool.false_eq_true, if_false] <;> omega

/-- Every pattern is made of its sign and its low bits. -/
theorem withSign_lowBits (a : Word) : withSign (signBit a) (lowBits a) = a := by
  apply BitVec.eq_of_toNat_eq
  have := a.isLt
  unfold withSign signBit lowBits
  by_cases h : 2 ^ 31 ≤ a.toNat
  · simp only [h, decide_true, if_true, BitVec.toNat_ofNat]; omega
  · simp only [h, decide_false, Bool.false_eq_true, if_false, BitVec.toNat_ofNat]; omega

theorem scaled_eq (a : Word) :
    scaled a = if signBit a then -(bitsMagnitude (lowBits a) : Int) else (bitsMagnitude (lowBits a) : Int) := by
  unfold scaled
  rw [magnitude_eq_bitsMagnitude]

theorem scaled_withSign (neg : Bool) {b : Nat} (hb : b < 2 ^ 31) :
    scaled (withSign neg b) = if neg then -(bitsMagnitude b : Int) else (bitsMagnitude b : Int) := by
  rw [scaled_eq, signBit_withSign neg hb, lowBits_withSign neg hb]

theorem scaled_natAbs (a : Word) : (scaled a).natAbs = magnitude a := by
  unfold scaled
  split <;> omega

/-- `fneg` flips the sign and keeps the rest (R168). -/
theorem signBit_fneg (a : Word) : signBit (fneg a) = !signBit a := by
  have h : ∀ b : Word, signBit b = b.getLsbD 31 := by
    intro b
    unfold signBit
    rw [BitVec.getLsbD, Nat.testBit_eq_decide_div_mod_eq]
    have := b.isLt
    apply Bool.eq_iff_iff.2
    rw [decide_eq_true_iff, decide_eq_true_iff]
    omega
  rw [h, h, fneg, BitVec.getLsbD_xor]
  simp

theorem lowBits_fneg (a : Word) : lowBits (fneg a) = lowBits a := by
  have h : ∀ b : Word, lowBits b = (b.setWidth 31).toNat := fun b => (BitVec.toNat_setWidth 31 b).symm
  rw [h, h, fneg, BitVec.setWidth_xor, show (0x80000000#32).setWidth 31 = 0#31 by decide, BitVec.xor_zero]

theorem scaled_fneg (a : Word) : scaled (fneg a) = -scaled a := by
  rw [scaled_eq, scaled_eq, signBit_fneg, lowBits_fneg]
  cases signBit a <;> simp

/-- The magnitude that a rounded significand and a scale pack to. -/
theorem bitsMagnitude_pack {e q : Nat} (hq : q ≤ 2 ^ 24) (he : e = 0 ∨ 2 ^ 23 ≤ q) :
    bitsMagnitude (e * 2 ^ 23 + q) = q * 2 ^ e := by
  unfold bitsMagnitude
  by_cases h24 : q = 2 ^ 24
  · have h1 : (e * 2 ^ 23 + q) / 2 ^ 23 = e + 2 := by omega
    have h2 : (e * 2 ^ 23 + q) % 2 ^ 23 = 0 := by omega
    rw [h1, h2, if_neg (by omega), show e + 2 - 1 = e + 1 by omega, pow_succ 2 e, h24]
    ring
  · by_cases h23 : 2 ^ 23 ≤ q
    · have h1 : (e * 2 ^ 23 + q) / 2 ^ 23 = e + 1 := by omega
      have h2 : 2 ^ 23 + (e * 2 ^ 23 + q) % 2 ^ 23 = q := by omega
      rw [h1, h2, if_neg (by omega), show e + 1 - 1 = e by omega]
    · rcases he with rfl | he
      · rw [if_pos (by omega)]; omega
      · exact absurd he h23

/-- A larger pattern is a larger magnitude. -/
theorem bitsMagnitude_strictMono : StrictMono bitsMagnitude := by
  refine strictMono_nat_of_lt_succ fun b => ?_
  obtain ⟨e, f, hf, rfl⟩ : ∃ e f, f < 2 ^ 23 ∧ b = e * 2 ^ 23 + f :=
    ⟨b / 2 ^ 23, b % 2 ^ 23, Nat.mod_lt _ (by decide), by omega⟩
  cases e with
  | zero =>
    have h := bitsMagnitude_pack (e := 0) (q := f) (by omega) (.inl rfl)
    have h' := bitsMagnitude_pack (e := 0) (q := f + 1) (by omega) (.inl rfl)
    rw [pow_zero] at h h'
    rw [h, show 0 * 2 ^ 23 + f + 1 = 0 * 2 ^ 23 + (f + 1) by omega, h']
    omega
  | succ e =>
    have h := bitsMagnitude_pack (e := e) (q := 2 ^ 23 + f) (by omega) (.inr (by omega))
    have h' := bitsMagnitude_pack (e := e) (q := 2 ^ 23 + f + 1) (by omega) (.inr (by omega))
    rw [show (e + 1) * 2 ^ 23 + f + 1 = e * 2 ^ 23 + (2 ^ 23 + f + 1) by omega, h',
      show (e + 1) * 2 ^ 23 + f = e * 2 ^ 23 + (2 ^ 23 + f) by omega, h]
    exact Nat.mul_lt_mul_of_pos_right (by omega) (Nat.two_pow_pos e)

/-- A magnitude of at least `2^(k + 23)` is a multiple of `2^k`: it has 24 significant bits. -/
theorem dvd_bitsMagnitude {b k : Nat} (h : 2 ^ (k + 23) ≤ bitsMagnitude b) : 2 ^ k ∣ bitsMagnitude b := by
  obtain ⟨e, f, hf, rfl⟩ : ∃ e f, f < 2 ^ 23 ∧ b = e * 2 ^ 23 + f :=
    ⟨b / 2 ^ 23, b % 2 ^ 23, Nat.mod_lt _ (by decide), by omega⟩
  cases e with
  | zero =>
    rw [bitsMagnitude_pack (by omega) (.inl rfl), pow_zero, mul_one] at h
    have := Nat.pow_le_pow_right (n := 2) (by decide) (show 23 ≤ k + 23 by omega)
    omega
  | succ e =>
    rw [show (e + 1) * 2 ^ 23 + f = e * 2 ^ 23 + (2 ^ 23 + f) by omega,
      bitsMagnitude_pack (by omega) (.inr (by omega))] at h ⊢
    have hlt : (2 ^ 23 + f) * 2 ^ e < 2 ^ (e + 24) := by
      rw [pow_add, mul_comm (2 ^ e)]
      exact Nat.mul_lt_mul_of_pos_right (by omega) (Nat.two_pow_pos e)
    have hk : k + 23 < e + 24 := (Nat.pow_lt_pow_iff_right (by decide)).1 (Nat.lt_of_le_of_lt h hlt)
    exact Dvd.dvd.mul_left (pow_dvd_pow 2 (by omega)) _

/-- `roundShift` is within half a unit of the exact quotient (R166). -/
theorem roundShift_half (m k : Nat) :
    2 * (roundShift m k * 2 ^ k) ≤ 2 * m + 2 ^ k ∧ 2 * m ≤ 2 * (roundShift m k * 2 ^ k) + 2 ^ k := by
  have hm := Nat.div_add_mod m (2 ^ k)
  have hr := Nat.mod_lt m (Nat.two_pow_pos k)
  rw [mul_comm] at hm
  unfold roundShift
  simp only
  split
  · next h => rw [add_mul, one_mul]; omega
  · next h => omega

/-- A tie goes to the even integer (R166). -/
theorem roundShift_tie {m k : Nat}
    (h : 2 * (roundShift m k * 2 ^ k) = 2 * m + 2 ^ k ∨ 2 * m = 2 * (roundShift m k * 2 ^ k) + 2 ^ k) :
    roundShift m k % 2 = 0 := by
  have hm := Nat.div_add_mod m (2 ^ k)
  have hr := Nat.mod_lt m (Nat.two_pow_pos k)
  rw [mul_comm] at hm
  have hp := Nat.two_pow_pos k
  revert h
  unfold roundShift
  simp only
  split
  · next h' => rw [add_mul, one_mul]; omega
  · next h' => omega

/-- No multiple of `2^k` is closer to `m` than `roundShift`'s, and one that is as close leaves it even (R166). -/
theorem roundShift_nearest (m k c : Nat) :
    (((roundShift m k * 2 ^ k : Nat) : Int) - m).natAbs ≤ (((c * 2 ^ k : Nat) : Int) - m).natAbs ∧
      (c ≠ roundShift m k →
        (((roundShift m k * 2 ^ k : Nat) : Int) - m).natAbs = (((c * 2 ^ k : Nat) : Int) - m).natAbs →
          roundShift m k % 2 = 0) := by
  obtain ⟨h1, h2⟩ := roundShift_half m k
  have ht := @roundShift_tie m k
  have hp := Nat.two_pow_pos k
  generalize roundShift m k = q at *
  have hc : c ≤ q → c * 2 ^ k + (q - c) * 2 ^ k = q * 2 ^ k := fun h => by rw [← add_mul]; congr 1; omega
  have hc' : q ≤ c → q * 2 ^ k + (c - q) * 2 ^ k = c * 2 ^ k := fun h => by rw [← add_mul]; congr 1; omega
  have hone : ∀ d, 1 ≤ d → 2 ^ k ≤ d * 2 ^ k := fun d hd => Nat.le_mul_of_pos_left _ hd
  rcases Nat.lt_trichotomy c q with h | h | h
  · have e := hc (by omega)
    have o := hone (q - c) (by omega)
    generalize (q - c) * 2 ^ k = d at *
    generalize q * 2 ^ k = x at *
    generalize c * 2 ^ k = y at *
    generalize 2 ^ k = p at *
    refine ⟨by omega, fun _ he => ht (by omega)⟩
  · subst h; exact ⟨le_rfl, fun h => absurd rfl h⟩
  · have e := hc' (by omega)
    have o := hone (c - q) (by omega)
    generalize (c - q) * 2 ^ k = d at *
    generalize q * 2 ^ k = x at *
    generalize c * 2 ^ k = y at *
    generalize 2 ^ k = p at *
    refine ⟨by omega, fun _ he => ht (by omega)⟩

/-- The multiple of the last place that a magnitude is rounded to. -/
theorem dropBits_ge (m s : Nat) : s ≤ dropBits m s := Nat.le_max_left _ _

theorem lt_dropBits (m s : Nat) : m < 2 ^ (dropBits m s + 24) := by
  refine Nat.lt_of_lt_of_le (Nat.lt_log2_self (n := m)) (Nat.pow_le_pow_right (by decide) ?_)
  unfold dropBits
  omega

theorem dropBits_le {m s : Nat} (h : s < dropBits m s) : 2 ^ (dropBits m s + 23) ≤ m := by
  unfold dropBits at h ⊢
  have hl : max s (m.log2 - 23) = m.log2 - 23 := by omega
  rw [hl, show m.log2 - 23 + 23 = m.log2 by omega]
  exact Nat.log2_self_le (by rintro rfl; simp at h)

/-- The rounded significand has at most 24 bits, and 24 unless the result is on the subnormal grid. -/
theorem significand_bounds (m s : Nat) :
    roundShift m (dropBits m s) ≤ 2 ^ 24 ∧ (dropBits m s - s = 0 ∨ 2 ^ 23 ≤ roundShift m (dropBits m s)) := by
  obtain ⟨h1, h2⟩ := roundShift_half m (dropBits m s)
  have hlt := lt_dropBits m s
  have hp := Nat.two_pow_pos (dropBits m s)
  have hge : s < dropBits m s → 2 ^ (dropBits m s + 23) ≤ m := dropBits_le
  rw [pow_add] at hlt hge
  have hs := dropBits_ge m s
  generalize roundShift m (dropBits m s) = q at *
  generalize dropBits m s = D at *
  constructor
  · by_contra hq
    have : (2 ^ 24 + 1) * 2 ^ D ≤ q * 2 ^ D := Nat.mul_le_mul_right _ (by omega)
    omega
  · by_cases hD : s < D
    · refine .inr ?_
      by_contra hq
      have : q * 2 ^ D ≤ (2 ^ 23 - 1) * 2 ^ D := Nat.mul_le_mul_right _ (by omega)
      have := hge hD
      omega
    · exact .inl (by omega)

/-- The bits that a magnitude would pack to with no largest exponent. -/
def rawPack (m s : Nat) : Nat := (dropBits m s - s) * 2 ^ 23 + roundShift m (dropBits m s)

theorem packMagnitude_eq (m s : Nat) : packMagnitude m s = min (rawPack m s) 0x7F800000 := rfl

theorem packMagnitude_le (m s : Nat) : packMagnitude m s ≤ 0x7F800000 := Nat.min_le_right _ _

theorem packMagnitude_lt (m s : Nat) : packMagnitude m s < 2 ^ 31 :=
  Nat.lt_of_le_of_lt (packMagnitude_le m s) (by decide)

/-- What the packed bits stand for: the rounded significand at its place. -/
theorem bitsMagnitude_rawPack (m s : Nat) :
    bitsMagnitude (rawPack m s) * 2 ^ s = roundShift m (dropBits m s) * 2 ^ dropBits m s := by
  obtain ⟨h1, h2⟩ := significand_bounds m s
  rw [rawPack, bitsMagnitude_pack h1 h2, mul_assoc, ← pow_add, Nat.sub_add_cancel (dropBits_ge m s)]

/-- No binary32 magnitude is closer to `m * 2^-s` than the packed one, and where another is as close the packed one is
even (R166). -/
theorem rawPack_nearest (m s b : Nat) :
    (((bitsMagnitude (rawPack m s) * 2 ^ s : Nat) : Int) - m).natAbs ≤
        (((bitsMagnitude b * 2 ^ s : Nat) : Int) - m).natAbs ∧
      (b ≠ rawPack m s →
        (((bitsMagnitude (rawPack m s) * 2 ^ s : Nat) : Int) - m).natAbs =
          (((bitsMagnitude b * 2 ^ s : Nat) : Int) - m).natAbs → rawPack m s % 2 = 0) := by
  have heven : rawPack m s % 2 = roundShift m (dropBits m s) % 2 := by unfold rawPack; omega
  have hraw := bitsMagnitude_rawPack m s
  have hne : b ≠ rawPack m s → bitsMagnitude b * 2 ^ s ≠ roundShift m (dropBits m s) * 2 ^ dropBits m s := by
    intro h he
    rw [← hraw] at he
    exact h (bitsMagnitude_strictMono.injective (Nat.eq_of_mul_eq_mul_right (Nat.two_pow_pos s) he))
  rw [heven, hraw]
  have hs := dropBits_ge m s
  have hle : s < dropBits m s → 2 ^ (dropBits m s + 23) ≤ m := dropBits_le
  have hnear := roundShift_nearest m (dropBits m s)
  generalize roundShift m (dropBits m s) = q at *
  generalize dropBits m s = D at *
  by_cases hmult : 2 ^ D ∣ bitsMagnitude b * 2 ^ s
  · obtain ⟨c, hc⟩ := hmult
    rw [mul_comm (2 ^ D) c] at hc
    rw [hc] at hne ⊢
    obtain ⟨h1, h2⟩ := hnear c
    exact ⟨h1, fun hb => h2 fun e => hne hb (by rw [e])⟩
  · -- a finer magnitude lies below `2^(D + 23)`, a multiple of `2^D` that is closer
    have hDs : s < D := by
      by_contra h
      exact hmult (Dvd.dvd.mul_left (pow_dvd_pow 2 (by omega)) _)
    have hsmall : bitsMagnitude b * 2 ^ s < 2 ^ 23 * 2 ^ D := by
      by_contra h
      refine hmult ?_
      have hb : 2 ^ (D - s + 23) ≤ bitsMagnitude b := by
        have e : 2 ^ 23 * 2 ^ D = 2 ^ (D - s + 23) * 2 ^ s := by
          rw [← pow_add, ← pow_add]; congr 1; omega
        rw [e] at h
        exact Nat.le_of_mul_le_mul_right (by omega) (Nat.two_pow_pos s)
      obtain ⟨c, hc⟩ := dvd_bitsMagnitude hb
      refine ⟨c, ?_⟩
      rw [hc, mul_right_comm, ← pow_add, Nat.sub_add_cancel hs]
    have hm := hle hDs
    rw [pow_add, mul_comm] at hm
    have h1 := (hnear (2 ^ 23)).1
    constructor
    · omega
    · intro _ he; omega

/-- The packed magnitude is the infinity exactly when the exact one is at least halfway from the largest finite number to
`2^128` (R166). -/
theorem packMagnitude_eq_inf_iff (m s : Nat) :
    packMagnitude m s = 0x7F800000 ↔ (2 ^ 277 - 2 ^ 252) * 2 ^ s ≤ m := by
  have hmax : bitsMagnitude 0x7F7FFFFF = (2 ^ 24 - 1) * 2 ^ 253 := by decide
  have hinf : bitsMagnitude 0x7F800000 = 2 ^ 277 := by decide
  have hp := Nat.two_pow_pos s
  have near := rawPack_nearest m s
  have mono : ∀ {a b}, a ≤ b → bitsMagnitude a * 2 ^ s ≤ bitsMagnitude b * 2 ^ s := fun h =>
    Nat.mul_le_mul_right _ (bitsMagnitude_strictMono.monotone h)
  have hmin : packMagnitude m s = 0x7F800000 ↔ 0x7F800000 ≤ rawPack m s := by
    rw [packMagnitude_eq]; omega
  rw [hmin]
  constructor
  · intro h
    have h1 := (near 0x7F7FFFFF).1
    have h2 := mono h
    rw [hinf] at h2
    rw [hmax] at h1
    generalize bitsMagnitude (rawPack m s) * 2 ^ s = V at *
    generalize 2 ^ s = p at *
    omega
  · intro h
    by_contra hlt
    have h1 := (near 0x7F800000).1
    have h2 := mono (show rawPack m s ≤ 0x7F7FFFFF by omega)
    have h3 := (near 0x7F800000).2 (by omega)
    rw [hinf] at h1 h3
    rw [hmax] at h2
    have hodd : rawPack m s ≠ 0x7F7FFFFF → bitsMagnitude (rawPack m s) * 2 ^ s + 2 ^ s ≤ (2 ^ 24 - 1) * 2 ^ 253 * 2 ^ s := by
      intro hne
      have := bitsMagnitude_strictMono (show rawPack m s < 0x7F7FFFFF by omega)
      rw [hmax] at this
      calc bitsMagnitude (rawPack m s) * 2 ^ s + 2 ^ s = (bitsMagnitude (rawPack m s) + 1) * 2 ^ s := by ring
        _ ≤ _ := Nat.mul_le_mul_right _ this
    by_cases he : rawPack m s = 0x7F7FFFFF
    · rw [he] at h1 h3
      rw [hmax] at h1 h3
      generalize 2 ^ s = p at *
      omega
    · have h4 := hodd he
      generalize bitsMagnitude (rawPack m s) * 2 ^ s = V at *
      generalize 2 ^ s = p at *
      omega

/-- Packing a magnitude that is a binary32 number gives that number back. -/
theorem packMagnitude_exact {b : Nat} (hb : b < 0x7F800000) (s : Nat) :
    packMagnitude (bitsMagnitude b * 2 ^ s) s = b := by
  have h1 := (rawPack_nearest (bitsMagnitude b * 2 ^ s) s b).1
  have h2 : bitsMagnitude (rawPack (bitsMagnitude b * 2 ^ s) s) * 2 ^ s = bitsMagnitude b * 2 ^ s := by omega
  have h3 := bitsMagnitude_strictMono.injective (Nat.eq_of_mul_eq_mul_right (Nat.two_pow_pos s) h2)
  rw [packMagnitude_eq, h3]
  omega

/-- A magnitude of at most 24 significant bits on the binary32 grid is packed exactly. -/
theorem bitsMagnitude_packMagnitude {m e : Nat} (hm : m ≤ 2 ^ 24) (he : m * 2 ^ e < 2 ^ 277) :
    bitsMagnitude (packMagnitude (m * 2 ^ e) 0) = m * 2 ^ e := by
  obtain ⟨b, hbm⟩ : ∃ b, bitsMagnitude b = m * 2 ^ e := by
    clear he
    induction e generalizing m with
    | zero => exact ⟨0 * 2 ^ 23 + m, bitsMagnitude_pack hm (.inl rfl)⟩
    | succ e ih =>
      by_cases h : 2 ^ 23 ≤ m
      · exact ⟨(e + 1) * 2 ^ 23 + m, bitsMagnitude_pack hm (.inr h)⟩
      · obtain ⟨b, hb⟩ := ih (m := 2 * m) (by omega)
        exact ⟨b, by rw [hb, pow_succ]; ring⟩
  have hb : b < 0x7F800000 := by
    rw [← bitsMagnitude_strictMono.lt_iff_lt, hbm, show bitsMagnitude 0x7F800000 = 2 ^ 277 by decide]
    exact he
  rw [← hbm]
  have := packMagnitude_exact hb 0
  rw [pow_zero, mul_one] at this
  rw [this]

end Sys2Proof.Machine
end

