-- ==== Sys2Proof/Laws/Memory.lean ====
section
/-! SUPPORT. The laws of the sample memory: a read after a write, and the canonical form kept by every write. -/

namespace Sys2Proof.Machine

@[simp] theorem readByte_nil (a : Nat) : readByte [] a = unlistedByte := rfl

theorem readByte_cons (c : Host.Cell) (m : Memory) (a : Nat) :
    readByte (c :: m) a = if c.1 = a then c.2 else readByte m a := rfl

/-- An address below every listed one is not listed. -/
theorem readByte_of_lt {m : Memory} {a : Nat} (h : ∀ c ∈ m, a < c.1) : readByte m a = unlistedByte := by
  induction m with
  | nil => rfl
  | cons c m ih =>
    have hc : c.1 ≠ a := Nat.ne_of_gt (h c (by simp))
    rw [readByte_cons, if_neg hc]
    exact ih fun d hd => h d (by simp [hd])

/-- A read after a write, for memories in canonical form. -/
theorem readByte_writeByte {m : Memory} (hm : m.wf) (a b : Nat) (v : Byte) :
    readByte (writeByte m a v) b = if a = b then v else readByte m b := by
  induction m with
  | nil => by_cases hv : v = unlistedByte <;> simp [writeByte, hv, readByte_cons]
  | cons c m ih =>
    obtain ⟨hs, hne⟩ := hm
    rw [List.pairwise_cons] at hs
    have ih := ih ⟨hs.2, fun d hd => hne d (by simp [hd])⟩
    have habove : ∀ d ∈ m, c.1 < d.1 := hs.1
    unfold writeByte
    split
    · next hlt =>
      have hfresh : readByte (c :: m) a = unlistedByte :=
        readByte_of_lt fun d hd => by
          rcases List.mem_cons.1 hd with rfl | hd
          · exact hlt
          · exact Nat.lt_trans hlt (habove d hd)
      split
      · next hv => split
                   · next hab => rw [← hab, hfresh, hv]
                   · rfl
      · rw [readByte_cons]
    · split
      · next _ hca =>
        subst hca
        split
        · next hv =>
          split
          · next hab => rw [← hab, readByte_of_lt habove, hv]
          · next hab => rw [readByte_cons, if_neg hab]
        · rw [readByte_cons, readByte_cons]
          split <;> rfl
      · next hlt hca =>
        rw [readByte_cons, readByte_cons, ih]
        split
        · next hcb => rw [if_neg (by rintro rfl; exact hca hcb)]
        · rfl

/-- A write touches no entry but those it was given, or the one written. -/
theorem mem_writeByte {m : Memory} {a : Nat} {v : Byte} {c : Host.Cell} (h : c ∈ writeByte m a v) :
    c ∈ m ∨ (c = (a, v) ∧ v ≠ unlistedByte) := by
  induction m with
  | nil =>
    unfold writeByte at h
    split at h
    · simp at h
    · next hv => exact .inr ⟨List.mem_singleton.1 h, hv⟩
  | cons d m ih =>
    unfold writeByte at h
    split at h
    · split at h
      · exact .inl h
      · next hv => rcases List.mem_cons.1 h with h | h
                   · exact .inr ⟨h, hv⟩
                   · exact .inl h
    · split at h
      · split at h
        · exact .inl (by simp [h])
        · next hv => rcases List.mem_cons.1 h with h | h
                     · exact .inr ⟨h, hv⟩
                     · exact .inl (by simp [h])
      · rcases List.mem_cons.1 h with h | h
        · exact .inl (by simp [h])
        · exact (ih h).imp_left fun h => by simp [h]

theorem writeByte_wf {m : Memory} (hm : m.wf) (a : Nat) (v : Byte) : (writeByte m a v).wf := by
  refine ⟨?_, fun c hc => ?_⟩
  · induction m with
    | nil => unfold writeByte; split <;> simp
    | cons c m ih =>
      obtain ⟨hs, hne⟩ := hm
      have hcons := hs
      rw [List.pairwise_cons] at hs
      have ih := ih ⟨hs.2, fun d hd => hne d (by simp [hd])⟩
      unfold writeByte
      split
      · next hlt =>
        split
        · exact hcons
        · refine List.pairwise_cons.2 ⟨fun d hd => ?_, hcons⟩
          rcases List.mem_cons.1 hd with rfl | hd
          · exact hlt
          · exact Nat.lt_trans hlt (hs.1 d hd)
      · split
        · next _ hca =>
          subst hca
          split
          · exact hs.2
          · exact List.pairwise_cons.2 ⟨hs.1, hs.2⟩
        · next hlt hca =>
          refine List.pairwise_cons.2 ⟨fun d hd => ?_, ih⟩
          rcases mem_writeByte hd with hd | ⟨rfl, _⟩
          · exact hs.1 d hd
          · show c.1 < a
            omega
  · rcases mem_writeByte hc with hc | ⟨rfl, hv⟩
    · exact hm.2 c hc
    · exact hv

theorem writeCell_wf {m : Memory} (hm : m.wf) (a : Nat) (v : Word) : (writeCell m a v).wf :=
  writeByte_wf (writeByte_wf (writeByte_wf (writeByte_wf hm _ _) _ _) _ _) _ _

/-- A cell write touches no entry but those it was given, or the four bytes of the cell. -/
theorem mem_writeCell {m : Memory} {a : Nat} {v : Word} {c : Host.Cell} (h : c ∈ writeCell m a v) :
    c ∈ m ∨ c.1 / 4 = a := by
  have aux : ∀ {m : Memory} {i : Nat} {w : Byte}, i < 4 → c ∈ writeByte m (4 * a + i) w → c ∈ m ∨ c.1 / 4 = a := by
    intro m i w hi hc
    rcases mem_writeByte hc with hc | ⟨rfl, _⟩
    · exact .inl hc
    · exact .inr (by show (4 * a + i) / 4 = a; omega)
  rcases aux (by omega) h with h | h
  · rcases aux (by omega) h with h | h
    · rcases aux (by omega) h with h | h
      · rcases aux (i := 0) (by omega) h with h | h
        · exact .inl h
        · exact .inr h
      · exact .inr h
    · exact .inr h
  · exact .inr h

/-- A byte after a cell write: of the cell's four bytes the new one, of every other byte the old one. -/
theorem readByte_writeCell {m : Memory} (hm : m.wf) (a b : Nat) (v : Word) :
    readByte (writeCell m a v) b = if b / 4 = a then v.extractLsb' (8 * (b % 4)) 8 else readByte m b := by
  have h0 := writeByte_wf hm (4 * a) (v.extractLsb' 0 8)
  have h1 := writeByte_wf h0 (4 * a + 1) (v.extractLsb' 8 8)
  have h2 := writeByte_wf h1 (4 * a + 2) (v.extractLsb' 16 8)
  unfold writeCell
  rw [readByte_writeByte h2, readByte_writeByte h1, readByte_writeByte h0, readByte_writeByte hm]
  by_cases hb : b / 4 = a
  · rw [if_pos hb]
    have : b % 4 = 0 ∨ b % 4 = 1 ∨ b % 4 = 2 ∨ b % 4 = 3 := by omega
    rcases this with h | h | h | h <;> rw [h]
    · rw [if_neg (by omega), if_neg (by omega), if_neg (by omega), if_pos (by omega)]
    · rw [if_neg (by omega), if_neg (by omega), if_pos (by omega)]
    · rw [if_neg (by omega), if_pos (by omega)]
    · rw [if_pos (by omega)]
  · rw [if_neg hb, if_neg (by omega), if_neg (by omega), if_neg (by omega), if_neg (by omega)]

/-- Four bytes put together are the word they were taken from. -/
theorem word_of_bytes (v : Word) :
    v.extractLsb' 24 8 ++ v.extractLsb' 16 8 ++ v.extractLsb' 8 8 ++ v.extractLsb' 0 8 = v := by
  refine BitVec.eq_of_getLsbD_eq fun i hi => ?_
  simp only [BitVec.getLsbD_append, BitVec.getLsbD_extractLsb']
  by_cases h0 : i < 8
  · simp [h0]
  · by_cases h1 : i < 16
    · simp [h0, show i - 8 < 8 by omega, show 8 + (i - 8) = i by omega]
    · by_cases h2 : i < 24
      · simp [h0, show ¬ i - 8 < 8 by omega, show i - 8 - 8 < 8 by omega, show 16 + (i - 8 - 8) = i by omega]
      · simp [h0, show ¬ i - 8 < 8 by omega, show ¬ i - 8 - 8 < 8 by omega,
          show i - 8 - 8 - 8 < 8 by omega, show 24 + (i - 8 - 8 - 8) = i by omega]

/-- A cell after a cell write (R45): the word written, or what the cell held. -/
theorem readCell_writeCell {m : Memory} (hm : m.wf) (a b : Nat) (v : Word) :
    readCell (writeCell m a v) b = if a = b then v else readCell m b := by
  unfold readCell
  rw [readByte_writeCell hm, readByte_writeCell hm, readByte_writeCell hm, readByte_writeCell hm]
  by_cases hab : a = b
  · subst hab
    rw [if_pos (by omega), if_pos (by omega), if_pos (by omega), if_pos (by omega), if_pos rfl]
    have e : 8 * ((4 * a + 3) % 4) = 24 ∧ 8 * ((4 * a + 2) % 4) = 16 ∧ 8 * ((4 * a + 1) % 4) = 8 ∧
        8 * (4 * a % 4) = 0 := by omega
    obtain ⟨e3, e2, e1, e0⟩ := e
    rw [e3, e2, e1, e0]
    exact word_of_bytes v
  · rw [if_neg (by omega), if_neg (by omega), if_neg (by omega), if_neg (by omega), if_neg hab]

/-- Memories in canonical form that read alike are equal: there is one list for each contents. -/
theorem memory_ext {m m' : Memory} (hm : m.wf) (hm' : m'.wf) (h : ∀ a, readByte m a = readByte m' a) : m = m' := by
  have listed : ∀ {c : Host.Cell} {l : Memory}, Memory.wf (c :: l) → readByte (c :: l) c.1 ≠ unlistedByte := by
    intro c l hl
    rw [readByte_cons, if_pos rfl]
    exact hl.2 c (by simp)
  have below : ∀ {c : Host.Cell} {l : Memory} {a : Nat}, Memory.wf (c :: l) → a < c.1 →
      readByte (c :: l) a = unlistedByte := by
    intro c l a hl ha
    refine readByte_of_lt fun d hd => ?_
    rcases List.mem_cons.1 hd with rfl | hd
    · exact ha
    · exact Nat.lt_trans ha ((List.pairwise_cons.1 hl.1).1 d hd)
  induction m generalizing m' with
  | nil =>
    cases m' with
    | nil => rfl
    | cons d m' => exact absurd (h d.1).symm (listed hm')
  | cons c m ih =>
    cases m' with
    | nil => exact absurd (h c.1) (listed hm)
    | cons d m' =>
      have hcd : c.1 = d.1 := by
        rcases Nat.lt_trichotomy c.1 d.1 with hlt | heq | hgt
        · exact absurd ((h c.1).trans (below hm' hlt)) (listed hm)
        · exact heq
        · exact absurd ((h d.1).symm.trans (below hm hgt)) (listed hm')
      have hv : c.2 = d.2 := by
        have := h c.1
        rwa [readByte_cons, if_pos rfl, readByte_cons, if_pos hcd.symm] at this
      have tails : m = m' := by
        refine ih ⟨(List.pairwise_cons.1 hm.1).2, fun e he => hm.2 e (by simp [he])⟩
          ⟨(List.pairwise_cons.1 hm'.1).2, fun e he => hm'.2 e (by simp [he])⟩ fun a => ?_
        by_cases hca : c.1 = a
        · subst hca
          rw [readByte_of_lt (List.pairwise_cons.1 hm.1).1,
            readByte_of_lt fun e he => hcd ▸ (List.pairwise_cons.1 hm'.1).1 e he]
        · have := h a
          rwa [readByte_cons, if_neg hca, readByte_cons, if_neg (hcd ▸ hca)] at this
      rw [tails, Prod.ext hcd hv]

end Sys2Proof.Machine
end

