-- ==== Sys2Proof/Laws/State.lean ====
section
/-! SUPPORT. One lemma per field for each shared update of the state, so that no later proof unfolds the update. -/

namespace Sys2Proof.Machine

/-! RESET (R240) -/

@[simp] theorem doReset_perm (s : State) : (doReset s).perm = buildPermutation 0#32 := rfl
@[simp] theorem doReset_faulted (s : State) : (doReset s).faulted = false := rfl
@[simp] theorem doReset_cause (s : State) : (doReset s).cause = 0#4 := rfl
@[simp] theorem doReset_finfo (s : State) : (doReset s).finfo = 0#32 := rfl
@[simp] theorem doReset_cmdbuf (s : State) : (doReset s).cmdbuf = [] := rfl
@[simp] theorem doReset_rspq (s : State) : (doReset s).rspq = [] := rfl
@[simp] theorem doReset_rspHold (s : State) : (doReset s).rspHold = none := rfl
@[simp] theorem doReset_windows (s : State) : (doReset s).windows = [] := rfl
@[simp] theorem doReset_mem (s : State) : (doReset s).mem = s.mem := rfl
@[simp] theorem doReset_draws (s : State) : (doReset s).draws = s.draws := rfl
@[simp] theorem doReset_host (s : State) : (doReset s).host = s.host := rfl
@[simp] theorem doReset_cfg (s : State) : (doReset s).cfg = s.cfg := rfl

/-! `push_rsp` (R28) -/

/-- Room in the queue depends on the queue and on the configuration alone. -/
theorem State.hasRoom_congr {s t : State} (hc : s.cfg = t.cfg) (hq : s.rspq = t.rspq) : s.hasRoom = t.hasRoom := by
  unfold State.hasRoom; rw [hc, hq]

@[simp] theorem pushRsp_perm (w : Word) (r : List CellRange) (s : State) : (pushRsp w r s).perm = s.perm := by
  unfold pushRsp; split <;> rfl
@[simp] theorem pushRsp_faulted (w : Word) (r : List CellRange) (s : State) :
    (pushRsp w r s).faulted = s.faulted := by
  unfold pushRsp; split <;> rfl
@[simp] theorem pushRsp_cause (w : Word) (r : List CellRange) (s : State) : (pushRsp w r s).cause = s.cause := by
  unfold pushRsp; split <;> rfl
@[simp] theorem pushRsp_finfo (w : Word) (r : List CellRange) (s : State) : (pushRsp w r s).finfo = s.finfo := by
  unfold pushRsp; split <;> rfl
@[simp] theorem pushRsp_cmdbuf (w : Word) (r : List CellRange) (s : State) :
    (pushRsp w r s).cmdbuf = s.cmdbuf := by
  unfold pushRsp; split <;> rfl
@[simp] theorem pushRsp_rspq (w : Word) (r : List CellRange) (s : State) :
    (pushRsp w r s).rspq = if s.hasRoom then s.rspq ++ [w] else s.rspq := by
  unfold pushRsp; split <;> rfl
@[simp] theorem pushRsp_rspHold (w : Word) (r : List CellRange) (s : State) :
    (pushRsp w r s).rspHold = if s.hasRoom then s.rspHold else some w := by
  unfold pushRsp; split <;> rfl
@[simp] theorem pushRsp_windows (w : Word) (r : List CellRange) (s : State) :
    (pushRsp w r s).windows = s.windows ++ [r] := by
  unfold pushRsp; split <;> rfl
@[simp] theorem pushRsp_mem (w : Word) (r : List CellRange) (s : State) : (pushRsp w r s).mem = s.mem := by
  unfold pushRsp; split <;> rfl
@[simp] theorem pushRsp_draws (w : Word) (r : List CellRange) (s : State) : (pushRsp w r s).draws = s.draws := by
  unfold pushRsp; split <;> rfl
@[simp] theorem pushRsp_host (w : Word) (r : List CellRange) (s : State) : (pushRsp w r s).host = s.host := by
  unfold pushRsp; split <;> rfl
@[simp] theorem pushRsp_cfg (w : Word) (r : List CellRange) (s : State) : (pushRsp w r s).cfg = s.cfg := by
  unfold pushRsp; split <;> rfl

/-- With room in the queue, `push_rsp` appends (R28). -/
theorem pushRsp_of_room {s : State} (h : s.hasRoom = true) (w : Word) (r : List CellRange) :
    pushRsp w r s = { s with rspq := s.rspq ++ [w], windows := s.windows ++ [r] } := by
  unfold pushRsp; rw [if_pos h]

/-- With the queue full, the response waits (R28). -/
theorem pushRsp_of_full {s : State} (h : s.hasRoom = false) (w : Word) (r : List CellRange) :
    pushRsp w r s = { s with rspHold := some w, windows := s.windows ++ [r] } := by
  unfold pushRsp; rw [if_neg (by simp [h])]

/-! Fault entry (R207) -/

@[simp] theorem raiseFault_perm (c : FaultCause) (info : Word) (op : Byte) (s : State) :
    (raiseFault c info op s).perm = s.perm := by simp [raiseFault]
@[simp] theorem raiseFault_faulted (c : FaultCause) (info : Word) (op : Byte) (s : State) :
    (raiseFault c info op s).faulted = true := by simp [raiseFault]
@[simp] theorem raiseFault_cause (c : FaultCause) (info : Word) (op : Byte) (s : State) :
    (raiseFault c info op s).cause = causeCode c := by simp [raiseFault]
@[simp] theorem raiseFault_finfo (c : FaultCause) (info : Word) (op : Byte) (s : State) :
    (raiseFault c info op s).finfo = info := by simp [raiseFault]
@[simp] theorem raiseFault_cmdbuf (c : FaultCause) (info : Word) (op : Byte) (s : State) :
    (raiseFault c info op s).cmdbuf = [] := by simp [raiseFault]
@[simp] theorem raiseFault_rspq (c : FaultCause) (info : Word) (op : Byte) (s : State) :
    (raiseFault c info op s).rspq =
      if s.hasRoom then s.rspq ++ [responseWord op (causeCode c)] else s.rspq := by
  rw [raiseFault, pushRsp_rspq]
@[simp] theorem raiseFault_rspHold (c : FaultCause) (info : Word) (op : Byte) (s : State) :
    (raiseFault c info op s).rspHold =
      if s.hasRoom then s.rspHold else some (responseWord op (causeCode c)) := by
  rw [raiseFault, pushRsp_rspHold]
@[simp] theorem raiseFault_windows (c : FaultCause) (info : Word) (op : Byte) (s : State) :
    (raiseFault c info op s).windows = s.windows ++ [[]] := by simp [raiseFault]
@[simp] theorem raiseFault_mem (c : FaultCause) (info : Word) (op : Byte) (s : State) :
    (raiseFault c info op s).mem = s.mem := by simp [raiseFault]
@[simp] theorem raiseFault_draws (c : FaultCause) (info : Word) (op : Byte) (s : State) :
    (raiseFault c info op s).draws = s.draws := by simp [raiseFault]
@[simp] theorem raiseFault_host (c : FaultCause) (info : Word) (op : Byte) (s : State) :
    (raiseFault c info op s).host = s.host := by simp [raiseFault]
@[simp] theorem raiseFault_cfg (c : FaultCause) (info : Word) (op : Byte) (s : State) :
    (raiseFault c info op s).cfg = s.cfg := by simp [raiseFault]

end Sys2Proof.Machine
end

