-- ==== Sys2Proof/Laws/Ops.lean ====
section
/-! SUPPORT. What each shared operation can answer, said once; later proofs cite these instead of unfolding. -/

namespace Sys2Proof.Machine

@[simp] theorem andThen_next {α β : Type} (v : α) (f : α → Access β) : andThen (.next v) f = f v := rfl
@[simp] theorem andThen_fault {α β : Type} (r : Fault) (f : α → Access β) : andThen (.fault r) f = .fault r := rfl
@[simp] theorem andThen_refused {α β : Type} (r : Refusal) (f : α → Access β) :
    andThen (.refused r) f = .refused r := rfl

/-- A sequence answers a value when its first part does and its second part does on that value. -/
theorem andThen_eq_next {α β : Type} {a : Access α} {f : α → Access β} {t : β} :
    andThen a f = .next t ↔ ∃ v, a = .next v ∧ f v = .next t := by
  cases a <;> simp [andThen]

/-- A sequence faults where its first part does, or where its second part does. -/
theorem andThen_eq_fault {α β : Type} {a : Access α} {f : α → Access β} {r : Fault} :
    andThen a f = .fault r ↔ a = .fault r ∨ ∃ v, a = .next v ∧ f v = .fault r := by
  cases a <;> simp [andThen]

theorem andThen_assoc {α β γ : Type} (a : Access α) (f : α → Access β) (g : β → Access γ) :
    andThen (andThen a f) g = andThen a fun v => andThen (f v) g := by
  cases a <;> rfl

/-- An access is answered when the cell exists and is backed (R40, R46). -/
theorem accessCell_eq_next {α : Type} {cfg : Config} {a : Nat} {v w : α} :
    accessCell cfg a v = .next w ↔ a < 2 ^ cfg.aw ∧ cellBacked cfg a = true ∧ v = w := by
  unfold accessCell
  split
  · next h => simp [Nat.not_lt.2 h]
  · next h =>
    split
    · next hb => simp [Nat.lt_of_not_le h, hb]
    · next hb => simp [hb]

theorem accessCell_of_backed {α : Type} {cfg : Config} {a : Nat} (h : a < 2 ^ cfg.aw) (hb : cellBacked cfg a = true)
    (v : α) : accessCell cfg a v = .next v := accessCell_eq_next.2 ⟨h, hb, rfl⟩

/-- An access faults only outside the address space (R40). -/
theorem accessCell_eq_fault {α : Type} {cfg : Config} {a : Nat} {v : α} {r : Fault} :
    accessCell cfg a v = .fault r ↔ 2 ^ cfg.aw ≤ a ∧ r = .addressOutsideSpace a := by
  unfold accessCell
  split
  · next h => simp [h, eq_comm]
  · next h => split <;> simp [h]

/-- An access is refused only at a cell outside `BACKED` (R46). -/
theorem accessCell_eq_refused {α : Type} {cfg : Config} {a : Nat} {v : α} {r : Refusal} :
    accessCell cfg a v = .refused r ↔ a < 2 ^ cfg.aw ∧ cellBacked cfg a = false ∧ r = .cellNotBacked a := by
  unfold accessCell
  split
  · next h => simp [Nat.not_lt.2 h]
  · next h =>
    split
    · next hb => simp [hb]
    · next hb => simp [Nat.lt_of_not_le h, hb, eq_comm]

/-- A read answers the cell's word. -/
theorem memRead_eq_next {s : State} {a : Nat} {w : Word} :
    memRead s a = .next w ↔ a < 2 ^ s.cfg.aw ∧ cellBacked s.cfg a = true ∧ readCell s.mem a = w :=
  accessCell_eq_next

/-- A write answers the state with that cell replaced. -/
theorem memWrite_eq_next {s t : State} {a : Nat} {v : Word} :
    memWrite s a v = .next t ↔
      a < 2 ^ s.cfg.aw ∧ cellBacked s.cfg a = true ∧ { s with mem := writeCell s.mem a v } = t :=
  accessCell_eq_next

/-- Taking a response removes the front word, and lets a command that waited for the room end (R28). -/
theorem takeResponse_eq_next {s t : State} (h : takeResponse s = .next t) :
    ∃ w rest, s.rspq = w :: rest ∧
      t = { s with rspq := rest ++ s.rspHold.toList, rspHold := none, windows := s.windows.tail } := by
  unfold takeResponse at h
  split at h
  · cases h
  · next w rest hq =>
    refine ⟨w, rest, hq, ?_⟩
    split at h
    · next hh =>
      cases h
      simp [hh]
    · next v hh =>
      cases h
      simp [hh]

/-- A host's store replaces one cell, outside every window (R51). -/
theorem hostStore_eq_next {s t : State} {a : Nat} {v : Word} (h : hostStore a v s = .next t) :
    (∀ window ∈ s.windows, ∀ r ∈ window, r.holds a = false) ∧ a < 2 ^ s.cfg.aw ∧ cellBacked s.cfg a = true ∧
      t = { s with mem := writeCell s.mem a v } := by
  unfold hostStore at h
  split at h
  · cases h
  · next hw =>
    obtain ⟨h1, h2, h3⟩ := memWrite_eq_next.1 h
    refine ⟨fun window hm r hr => ?_, h1, h2, h3.symm⟩
    by_contra hc
    exact hw (List.any_eq_true.2 ⟨window, hm, List.any_eq_true.2 ⟨r, hr, by simpa using hc⟩⟩)

/-- What accepting a word can lead to (R73), once for all. -/
theorem acceptWord_cases (w : Word) (s : State) :
    (s.faulted = true ∧ acceptWord w s = .done (.refused .coreFaulted)) ∨
    (s.faulted = false ∧ s.rspHold.isSome = true ∧ acceptWord w s = .done (.refused .commandRunning)) ∨
    (s.cmdReady = true ∧
      ((∃ i rest, decode (s.cmdbuf ++ [w]) = .ok (i, rest) ∧ acceptWord w s = .run i { s with cmdbuf := [] }) ∨
       (decode (s.cmdbuf ++ [w]) = .error .incomplete ∧
          acceptWord w s = .done (.next { s with cmdbuf := s.cmdbuf ++ [w] })) ∨
       (∃ h, decode (s.cmdbuf ++ [w]) = .error (.illegalHeader h) ∧
          acceptWord w s = .done (.next (raiseFault .illegalCommand h (headerOp h) s))))) := by
  unfold acceptWord State.cmdReady
  by_cases hf : s.faulted = true
  · exact .inl ⟨hf, by rw [if_pos hf]⟩
  · by_cases hh : s.rspHold.isSome = true
    · exact .inr (.inl ⟨by simpa using hf, hh, by rw [if_neg hf, if_pos hh]⟩)
    · refine .inr (.inr ⟨by simpa using And.intro hf hh, ?_⟩)
      rw [if_neg hf, if_neg hh]
      split
      · next i rest hd => exact .inl ⟨i, rest, hd, rfl⟩
      · next hd => exact .inr (.inl ⟨hd, rfl⟩)
      · next h hd => exact .inr (.inr ⟨h, hd, rfl⟩)

end Sys2Proof.Machine
end

