-- ==== Sys2Proof/Laws/PerInstr.lean ====
section
/-! SUPPORT. The families of statements about the commands as syntax, one lemma per constructor of Instr. -/

namespace Sys2Proof.Laws

/-- Decoding a command's packet, whatever words follow it, gives the command back and leaves those words
(spec/30_encoding.md R63, R68). -/
def RoundTrip.Statement (i : Instr) : Prop := ∀ rest : List Word, decode (encode i ++ rest) = .ok (i, rest)

theorem RoundTrip.construct : RoundTrip.Statement .construct := fun _ => rfl

theorem RoundTrip.constructS (seed : Word) : RoundTrip.Statement (.constructS seed) := fun _ => rfl

theorem RoundTrip.process (x y z o : Descriptor) (n : Word) : RoundTrip.Statement (.process x y z o n) := fun _ => rfl

/-- Every proper beginning of a command's packet is incomplete, never illegal (R66, R73). -/
def Prefix.Statement (i : Instr) : Prop :=
  ∀ k < (encode i).length, decode ((encode i).take k) = .error .incomplete

theorem Prefix.construct : Prefix.Statement .construct := by
  intro k hk
  obtain rfl : k = 0 := by simpa [encode] using hk
  rfl

theorem Prefix.constructS (seed : Word) : Prefix.Statement (.constructS seed) := by
  intro k hk
  have hk : k < 2 := hk
  interval_cases k <;> rfl

theorem Prefix.process (x y z o : Descriptor) (n : Word) : Prefix.Statement (.process x y z o n) := by
  intro k hk
  have hk : k < 10 := hk
  interval_cases k <;> rfl

/-- The first word of a command's packet alone gives the packet's length (R68). -/
def Length.Statement (i : Instr) : Prop := ∃ h ops, encode i = h :: ops ∧ packetLength h = ops.length + 1

theorem Length.construct : Length.Statement .construct := ⟨_, _, rfl, rfl⟩

theorem Length.constructS (seed : Word) : Length.Statement (.constructS seed) := ⟨_, _, rfl, rfl⟩

theorem Length.process (x y z o : Descriptor) (n : Word) : Length.Statement (.process x y z o n) := ⟨_, _, rfl, rfl⟩

end Sys2Proof.Laws
end

