-- ==== Sys2Proof/Laws/Process.lean ====
section
/-! SUPPORT. What the parts of PROCESS can answer, said once: its checks, one sample, a run of samples. -/

namespace Sys2Proof.Machine

/-- The checks pass exactly when the preconditions hold (R141). -/
theorem checkProcess_eq_none {cfg : Config} {x y z o : Descriptor} {n : Word} :
    checkProcess cfg x y z o n = none ↔ ProcessLegal cfg x y z o n := by
  have hn : n = 0#32 ↔ n.toNat = 0 :=
    ⟨fun h => by rw [h]; rfl, fun h => BitVec.eq_of_toNat_eq h⟩
  have h1 : ∀ d, descriptorBad cfg d = false ↔ d.base.toNat + d.len.toNat ≤ 2 ^ cfg.aw := fun d => by
    unfold descriptorBad; rw [decide_eq_false_iff_not, Nat.not_lt]
  have h2 : ∀ d, bufferShort n d = false ↔ n.toNat ≤ d.len.toNat := fun d => by
    unfold bufferShort; rw [decide_eq_false_iff_not, Nat.not_lt]
  have h3 : ∀ d, buffersMeet o n d = false ↔
      d.base.toNat + n.toNat ≤ o.base.toNat ∨ o.base.toNat + n.toNat ≤ d.base.toNat := fun d => by
    unfold buffersMeet
    rw [Bool.and_eq_false_iff, decide_eq_false_iff_not, decide_eq_false_iff_not]
    omega
  unfold checkProcess ProcessLegal
  split
  · next b hb =>
    refine ⟨fun h => (nomatch h), fun h => ?_⟩
    have := List.findIdx?_eq_none_iff.2 fun d hd => (h1 d).2 (h.1 d hd).1
    rw [this] at hb
    cases hb
  · next hb =>
    have hb := List.findIdx?_eq_none_iff.1 hb
    split
    · next b hs =>
      refine ⟨fun h => (nomatch h), fun h => ?_⟩
      have := List.findIdx?_eq_none_iff.2 fun d hd => (h2 d).2 (h.1 d hd).2
      rw [this] at hs
      cases hs
    · next hs =>
      have hs := List.findIdx?_eq_none_iff.1 hs
      have hfirst : ∀ d ∈ [x, y, z, o], d.base.toNat + d.len.toNat ≤ 2 ^ cfg.aw ∧ n.toNat ≤ d.len.toNat :=
        fun d hd => ⟨(h1 d).1 (hb d hd), (h2 d).1 (hs d hd)⟩
      split
      · next h0 =>
        rw [hn] at h0
        exact ⟨fun _ => ⟨hfirst, fun h => by omega⟩, fun _ => rfl⟩
      · next h0 =>
        rw [hn] at h0
        rw [Option.map_eq_none_iff, List.findIdx?_eq_none_iff]
        exact ⟨fun h => ⟨hfirst, fun _ d hd => (h3 d).1 (h d hd)⟩,
          fun h d hd => (h3 d).2 (h.2 (by omega) d hd)⟩

/-- The faults of PROCESS are the three of R201 that it raises, and their information is a buffer index. -/
theorem checkProcess_eq_some {cfg : Config} {x y z o : Descriptor} {n info : Word} {c : FaultCause}
    (h : checkProcess cfg x y z o n = some (c, info)) :
    ∃ b, info = bufferIndex b ∧
      ((c = .badDescriptor ∧ [x, y, z, o].findIdx? (descriptorBad cfg) = some b) ∨
       (c = .bufferTooShort ∧ [x, y, z, o].findIdx? (bufferShort n) = some b) ∨
       (c = .bufferOverlap ∧ [x, y, z].findIdx? (buffersMeet o n) = some b)) := by
  unfold checkProcess at h
  split at h
  · next b hb => cases h; exact ⟨b, rfl, .inl ⟨rfl, hb⟩⟩
  · split at h
    · next b hb => cases h; exact ⟨b, rfl, .inr (.inl ⟨rfl, hb⟩)⟩
    · split at h
      · cases h
      · obtain ⟨b, hb, he⟩ := Option.map_eq_some_iff.1 h
        cases he
        exact ⟨b, rfl, .inr (.inr ⟨rfl, hb⟩)⟩

/-- One sample, when every access is answered: the output cell holds the sample, and nothing else changes (R142). -/
theorem processSample_eq_next {x y z o : Descriptor} {k : Nat} {s t : State} :
    processSample x y z o k s = .next t ↔
      (∀ d ∈ [x, y, z, o], elementCell d k < 2 ^ s.cfg.aw ∧ cellBacked s.cfg (elementCell d k) = true) ∧
      t = { s with mem := writeCell s.mem (elementCell o k) (sampleOf s x y z k) } := by
  unfold processSample sampleOf
  simp only [andThen_eq_next, memRead_eq_next, memWrite_eq_next, List.forall_mem_cons, List.not_mem_nil,
    false_imp_iff, implies_true, and_true]
  constructor
  · rintro ⟨_, ⟨x1, x2, rfl⟩, _, ⟨y1, y2, rfl⟩, _, ⟨z1, z2, rfl⟩, o1, o2, rfl⟩
    exact ⟨⟨⟨x1, x2⟩, ⟨y1, y2⟩, ⟨z1, z2⟩, o1, o2⟩, rfl⟩
  · rintro ⟨⟨⟨x1, x2⟩, ⟨y1, y2⟩, ⟨z1, z2⟩, o1, o2⟩, rfl⟩
    exact ⟨_, ⟨x1, x2, rfl⟩, _, ⟨y1, y2, rfl⟩, _, ⟨z1, z2, rfl⟩, o1, o2, rfl⟩

/-- A run of samples changes the sample memory and nothing else (R144). -/
theorem processSamples_eq_next {x y z o : Descriptor} {ks : List Nat} {s t : State}
    (h : processSamples x y z o ks s = .next t) : t = { s with mem := t.mem } := by
  induction ks generalizing s with
  | nil => cases h; rfl
  | cons k ks ih =>
    obtain ⟨u, hu, h⟩ := andThen_eq_next.1 h
    obtain ⟨_, rfl⟩ := processSample_eq_next.1 hu
    have := ih h
    exact this

/-- A run of samples keeps the canonical form of the memory. -/
theorem processSamples_wf {x y z o : Descriptor} {ks : List Nat} {s t : State} (hw : s.mem.wf)
    (h : processSamples x y z o ks s = .next t) : t.mem.wf := by
  induction ks generalizing s with
  | nil => cases h; exact hw
  | cons k ks ih =>
    obtain ⟨u, hu, h⟩ := andThen_eq_next.1 h
    obtain ⟨_, rfl⟩ := processSample_eq_next.1 hu
    exact ih (writeCell_wf hw _ _) h

/-- What a PROCESS can answer as a next state: fault entry by its checks, or its samples and its response. -/
theorem execProcess_eq_next {x y z o : Descriptor} {n : Word} {s t : State}
    (h : execProcess x y z o n s = .next t) :
    (∃ c info, checkProcess s.cfg x y z o n = some (c, info) ∧ t = raiseFault c info 0x02#8 s) ∨
    (checkProcess s.cfg x y z o n = none ∧ ∃ u, processSamples x y z o (List.range n.toNat) s = .next u ∧
      t = pushRsp (responseWord 0x02#8 0#4) (accessedRanges x y z o n) { u with draws := u.draws + n.toNat }) := by
  unfold execProcess at h
  split at h
  · next c info hc => cases h; exact .inl ⟨c, info, hc, rfl⟩
  · next hc =>
    obtain ⟨u, hu, h⟩ := andThen_eq_next.1 h
    cases h
    exact .inr ⟨hc, u, hu, rfl⟩

end Sys2Proof.Machine
end

