-- ==== Sys2Proof/Laws/Response.lean ====
section
/-! SUPPORT. The response word as a number (R69), and what pushing one does (R28, R70). -/

namespace Sys2Proof.Machine

/-- The response word is `op` in its low byte and `cause` in the four bits above (R69). -/
theorem responseWord_eq (op : Byte) (cause : BitVec 4) :
    responseWord op cause = BitVec.ofNat 32 (cause.toNat * 0x100 + op.toNat) := by
  apply BitVec.eq_of_toNat_eq
  have h1 := op.isLt
  have h2 := cause.isLt
  unfold responseWord
  simp only [BitVec.toNat_append, BitVec.toNat_ofNat, Nat.zero_mod, Nat.shiftLeft_eq, Nat.zero_mul, Nat.zero_or]
  rw [mul_comm cause.toNat (2 ^ 8), ← Nat.two_pow_add_eq_or_of_lt h1]
  omega

theorem responseWord_construct : responseWord 0x01#8 0#4 = 0x00000001#32 := by decide
theorem responseWord_process : responseWord 0x02#8 0#4 = 0x00000002#32 := by decide
theorem responseWord_badDescriptor : responseWord 0x02#8 2#4 = 0x00000202#32 := by decide
theorem responseWord_bufferTooShort : responseWord 0x02#8 3#4 = 0x00000302#32 := by decide
theorem responseWord_bufferOverlap : responseWord 0x02#8 4#4 = 0x00000402#32 := by decide

/-- `push_rsp` on a state with the queue, the waiting response and the configuration of `s`. -/
theorem responded_pushRsp {s t : State} (hc : t.cfg = s.cfg) (hq : t.rspq = s.rspq) (hh : t.rspHold = s.rspHold)
    (w : Word) (r : List CellRange) : Responded s (pushRsp w r t) w := by
  have e := State.hasRoom_congr hc hq
  constructor <;> intro h
  · rw [pushRsp_rspq, pushRsp_rspHold, e, h, if_pos rfl, if_pos rfl, hq, hh]; exact ⟨rfl, rfl⟩
  · rw [pushRsp_rspq, pushRsp_rspHold, e, h, if_neg (by simp), if_neg (by simp), hq]; exact ⟨rfl, rfl⟩

/-- Fault entry pushes the response of its cause (R207). -/
theorem responded_raiseFault (s : State) (c : FaultCause) (info : Word) (op : Byte) :
    Responded s (raiseFault c info op s) (responseWord op (causeCode c)) :=
  responded_pushRsp (t := { s with faulted := true, cause := causeCode c, finfo := info, cmdbuf := [] }) rfl rfl rfl _ _

end Sys2Proof.Machine
end

