-- ==== Sys2Proof/Laws/Step.lean ====
section
/-! SUPPORT. What a command, an abandoned command and a step can answer, said once: every statement about all steps is a
case analysis on `step_cases`. -/

namespace Sys2Proof.Machine

/-- What a command that answers a next state has done (R96, R97, R142, R207). The two constructions are one case with a
seed that is a variable: on the literal seed 0 the kernel may run the 255 swaps where it compares two states. -/
theorem exec_cases {i : Instr} {s t : State} (h : exec i s = .next t) :
    (∃ seed, (i = .construct ∧ seed = 0#32 ∨ i = .constructS seed) ∧
      t = pushRsp (responseWord 0x01#8 0#4) [] { s with perm := buildPermutation seed }) ∨
    (∃ x y z o n, i = .process x y z o n ∧
      ((∃ c info, checkProcess s.cfg x y z o n = some (c, info) ∧ t = raiseFault c info 0x02#8 s) ∨
       (ProcessLegal s.cfg x y z o n ∧ ∃ u, processSamples x y z o (List.range n.toNat) s = .next u ∧
         t = pushRsp (responseWord 0x02#8 0#4) (accessedRanges x y z o n)
           { u with draws := u.draws + n.toNat }))) := by
  cases i with
  | construct => cases h; exact .inl ⟨_, .inl ⟨rfl, rfl⟩, rfl⟩
  | constructS seed => cases h; exact .inl ⟨seed, .inr rfl, rfl⟩
  | process x y z o n =>
    refine .inr ⟨x, y, z, o, n, rfl, ?_⟩
    rcases execProcess_eq_next h with h | ⟨hc, h⟩
    · exact .inl h
    · exact .inr ⟨checkProcess_eq_none.1 hc, h⟩

/-- A sample of a PROCESS cut short has been performed, or nothing has (U8). -/
theorem cutSample_cases (x y z o : Descriptor) (s : State) (k : Nat) :
    cutSample x y z o s k = s ∨ processSample x y z o k s = .next (cutSample x y z o s k) := by
  unfold cutSample
  split
  · next t _ ht => exact .inr ht
  · exact .inl rfl

/-- The samples of a PROCESS cut short change the memory only, in cells of the address space, and keep its form. -/
theorem cutSamples_spec (x y z o : Descriptor) (ks : List Nat) (s : State) :
    ks.foldl (cutSample x y z o) s = { s with mem := (ks.foldl (cutSample x y z o) s).mem } ∧
    (s.mem.wf → (ks.foldl (cutSample x y z o) s).mem.wf) ∧
    ∀ c ∈ (ks.foldl (cutSample x y z o) s).mem, c ∈ s.mem ∨ c.1 / 4 < 2 ^ s.cfg.aw := by
  induction ks generalizing s with
  | nil => exact ⟨rfl, id, fun _ hc => .inl hc⟩
  | cons k ks ih =>
    rw [List.foldl_cons]
    rcases cutSample_cases x y z o s k with hs | hs
    · rw [hs]; exact ih s
    · obtain ⟨hk, ht⟩ := processSample_eq_next.1 hs
      rw [ht]
      obtain ⟨h1, h2, h3⟩ := ih { s with mem := writeCell s.mem (elementCell o k) (sampleOf s x y z k) }
      refine ⟨h1, fun hw => h2 (writeCell_wf hw _ _), fun c hc => ?_⟩
      rcases h3 c hc with hc | hc
      · rcases mem_writeCell hc with hc | hc
        · exact .inl hc
        · exact .inr (hc ▸ (hk o (by simp)).1)
      · exact .inr hc

/-- What is left of a command that a reset cuts short: the memory and the count of draws may differ (R240). -/
theorem abandon_spec (i : Instr) (s : State) :
    abandon i s = { s with mem := (abandon i s).mem, draws := (abandon i s).draws } ∧
    (s.mem.wf → (abandon i s).mem.wf) ∧ (∀ c ∈ (abandon i s).mem, c ∈ s.mem ∨ c.1 / 4 < 2 ^ s.cfg.aw) ∧
    ((∀ x y z o n, i ≠ .process x y z o n) → (abandon i s).mem = s.mem) := by
  cases i with
  | construct => exact ⟨rfl, id, fun _ hc => .inl hc, fun _ => rfl⟩
  | constructS seed => exact ⟨rfl, id, fun _ hc => .inl hc, fun _ => rfl⟩
  | process x y z o n =>
    unfold abandon
    dsimp only
    split
    · exact ⟨rfl, id, fun _ hc => .inl hc, fun _ => rfl⟩
    · obtain ⟨h1, h2, h3⟩ := cutSamples_spec x y z o (List.range n.toNat) s
      refine ⟨?_, h2, h3, fun h => absurd rfl (h x y z o n)⟩
      rw [h1]

/-- Reset leaves nothing of a fault entry (R240). -/
theorem doReset_raiseFault (c : FaultCause) (info : Word) (op : Byte) (s : State) :
    doReset (raiseFault c info op s) = doReset s := by
  unfold raiseFault pushRsp
  split <;> rfl

/-- What a step that answers a next state has done, once for all: it has taken one event of the host (R7, R74). -/
theorem step_cases {s t : State} (h : step s = .next t) :
    ∃ event rest, s.host = event :: rest ∧
      ((event = .takeResponse ∧ takeResponse { s with host := rest } = .next t) ∨
       (∃ cell value, event = .store cell value ∧ hostStore cell.toNat value { s with host := rest } = .next t) ∨
       (event = .reset ∧ t = doReset { s with host := rest }) ∨
       (s.faulted = false ∧ s.rspHold = none ∧ ∃ w,
         ((∃ i more, decode (s.cmdbuf ++ [w]) = .ok (i, more) ∧
            ((event = .word w ∧ exec i { s with host := rest, cmdbuf := [] } = .next t) ∨
             (event = .wordCutByReset w ∧ t = doReset (abandon i { s with host := rest, cmdbuf := [] })))) ∨
          (decode (s.cmdbuf ++ [w]) = .error .incomplete ∧
            ((event = .word w ∧ t = { s with host := rest, cmdbuf := s.cmdbuf ++ [w] }) ∨
             (event = .wordCutByReset w ∧ t = doReset { s with host := rest }))) ∨
          (∃ hdr, decode (s.cmdbuf ++ [w]) = .error (.illegalHeader hdr) ∧
            ((event = .word w ∧
                t = raiseFault .illegalCommand hdr (headerOp hdr) { s with host := rest }) ∨
             (event = .wordCutByReset w ∧ t = doReset { s with host := rest })))))) := by
  unfold step nextAction at h
  have ready : ∀ {rest : List HostEvent}, State.cmdReady { s with host := rest } = true →
      s.faulted = false ∧ s.rspHold = none := fun h => by simpa [State.cmdReady] using h
  rcases hh : s.host with _ | ⟨event, rest⟩
  · rw [hh] at h; cases h
  · rw [hh] at h
    refine ⟨event, rest, rfl, ?_⟩
    cases event with
    | takeResponse => exact .inl ⟨rfl, h⟩
    | store cell value => exact .inr (.inl ⟨cell, value, rfl, h⟩)
    | reset => cases h; exact .inr (.inr (.inl ⟨rfl, rfl⟩))
    | word w =>
      dsimp only at h
      rcases acceptWord_cases w { s with host := rest } with ⟨_, e⟩ | ⟨_, _, e⟩ | ⟨hr, hd⟩
      · rw [e] at h; cases h
      · rw [e] at h; cases h
      · refine .inr (.inr (.inr ⟨(ready hr).1, (ready hr).2, w, ?_⟩))
        rcases hd with ⟨i, more, hd, e⟩ | ⟨hd, e⟩ | ⟨hdr, hd, e⟩
        · rw [e] at h; exact .inl ⟨i, more, hd, .inl ⟨rfl, h⟩⟩
        · rw [e] at h; cases h; exact .inr (.inl ⟨hd, .inl ⟨rfl, rfl⟩⟩)
        · rw [e] at h; cases h; exact .inr (.inr ⟨hdr, hd, .inl ⟨rfl, rfl⟩⟩)
    | wordCutByReset w =>
      dsimp only [acceptWordCut] at h
      rcases acceptWord_cases w { s with host := rest } with ⟨_, e⟩ | ⟨_, _, e⟩ | ⟨hr, hd⟩
      · rw [e] at h; cases h
      · rw [e] at h; cases h
      · refine .inr (.inr (.inr ⟨(ready hr).1, (ready hr).2, w, ?_⟩))
        rcases hd with ⟨i, more, hd, e⟩ | ⟨hd, e⟩ | ⟨hdr, hd, e⟩
        · rw [e] at h; cases h; exact .inl ⟨i, more, hd, .inr ⟨rfl, rfl⟩⟩
        · rw [e] at h; cases h; exact .inr (.inl ⟨hd, .inr ⟨rfl, rfl⟩⟩)
        · rw [e] at h; dsimp only [andThen_next] at h; rw [doReset_raiseFault] at h
          cases h; exact .inr (.inr ⟨hdr, hd, .inr ⟨rfl, rfl⟩⟩)

end Sys2Proof.Machine
end

