-- ==== Sys2Proof/Tests/Slice0.lean ====
section
/-! SUPPORT. Tests, each with the place in spec/ that its expected result comes from, and the witnesses: for every
statement with hypotheses, concrete values that meet them all. -/

namespace Sys2Proof.Tests

open Sys2Proof.Machine

set_option exponentiation.threshold 300
set_option Elab.async false

/-! Helpers -/

def permZeroA : List Nat :=
  [2, 8, 16, 168, 0, 59, 140, 241, 28, 150, 32, 12, 53, 118, 184, 40, 92, 172, 244, 149, 252, 144, 89, 66, 10,
   114, 200, 186, 6, 13, 38, 42, 192, 116, 46, 44, 197, 123, 80, 211, 50, 91, 86, 94, 110, 72, 136, 208, 22,
   248, 70, 3, 45, 64, 156, 77, 17, 204, 74, 107, 68, 105, 78, 75]

def permZeroB : List Nat :=
  [98, 126, 205, 101, 108, 100, 148, 251, 29, 173, 214, 111, 57, 109, 152, 88, 202, 84, 96, 236, 218, 120, 210,
   130, 133, 43, 79, 231, 24, 221, 132, 147, 134, 87, 122, 11, 82, 138, 117, 176, 90, 162, 238, 27, 220, 219,
   99, 223, 228, 206, 93, 195, 58, 15, 121, 212, 119, 142, 60, 19, 20, 240, 178, 139]

def permZeroC : List Nat :=
  [5, 69, 102, 157, 222, 97, 213, 103, 174, 41, 199, 171, 34, 33, 113, 217, 106, 146, 125, 182, 124, 161, 198,
   229, 76, 164, 189, 190, 128, 153, 254, 243, 30, 233, 234, 193, 191, 155, 39, 201, 54, 131, 4, 255, 52, 194,
   26, 239, 47, 232, 216, 188, 253, 67, 169, 247, 18, 196, 51, 83, 143, 141, 166, 159]

def permZeroD : List Nat :=
  [170, 115, 181, 7, 85, 250, 112, 230, 36, 175, 160, 183, 73, 226, 163, 127, 104, 25, 137, 151, 180, 177, 209,
   71, 237, 235, 21, 227, 154, 49, 62, 31, 224, 81, 135, 179, 1, 215, 23, 55, 65, 249, 9, 207, 158, 35, 56, 63,
   225, 37, 185, 203, 14, 245, 246, 167, 145, 129, 61, 187, 48, 165, 242, 95]

/-- The entries of V-PERM0, spec/95_test_vectors.md section 2.2. -/
def permZero : List Nat := permZeroA ++ permZeroB ++ permZeroC ++ permZeroD

theorem permZero_length : (permZero.map (BitVec.ofNat 8)).toArray.size = 256 := by decide +kernel

/-- V-PERM0 as a table. -/
def tableZero : PermTable := ⟨(permZero.map (BitVec.ofNat 8)).toArray, permZero_length⟩

/-- The reset state with V-PERM0 written out, and with what the host does next. -/
def start (host : List HostEvent) : State := { State.reset with perm := tableZero, host := host }

/-- `start` after an IllegalCommand of the word `0x00000003`. -/
def faultedStart (host : List HostEvent) : State :=
  { start host with faulted := true, cause := 1#4, finfo := 3#32, rspq := [0x103#32], windows := [[]] }

/-- `start` with a queue of capacity 1 that is full. -/
def fullStart (host : List HostEvent) : State :=
  { start host with cfg := { Config.default with rspqDepth := some 1 }, rspq := [1#32], windows := [[]] }

/-- `fullStart` after a PROCESS whose response waits for room. -/
def heldStart (host : List HostEvent) : State :=
  { fullStart host with rspHold := some 2#32, windows := [[], [⟨0x10, 0x12⟩]] }

/-- `start` with the cell `0x40` outside `BACKED`. -/
def unbackedStart : State := { start [] with cfg := { Config.default with unbacked := [⟨0x40, 0x41⟩] } }

/-- A field of the next state, if there is one. -/
def got {α : Type} (f : State → α) (o : Host.Outcome State Fault Refusal) : Option α :=
  match o with
  | .next t => some (f t)
  | .fault _ => none
  | .refused _ => none

/-- The refusal, if it is one. -/
def stopped (o : Host.Outcome State Fault Refusal) : Option Refusal :=
  match o with
  | .refused r => some r
  | .next _ => none
  | .fault _ => none

/-- The fault status of a state. -/
def status (t : State) : Bool × BitVec 4 × Word × List Word := (t.faulted, t.cause, t.finfo, t.rspq)

/-! WellFormed: an ill-formed configuration for each check -/

theorem test_aw_zero_refused : ({ Config.default with aw := 0 } : Config).wellFormed = false := by decide
theorem test_aw_above_32_refused : ({ Config.default with aw := 33 } : Config).wellFormed = false := by decide
theorem test_depth_zero_refused : ({ Config.default with rspqDepth := some 0 } : Config).wellFormed = false := by decide
theorem test_default_accepted : Config.default.wellFormed = true := by decide

/-! Decode: words written bit by bit from spec/30_encoding.md R62 and R63 -/

/-- `rsv = 0`, `s = 0`, `op = 0x01`. -/
theorem test_decode_construct :
    decode [0b00000000000000000000000#23 ++ 0b0#1 ++ 0b00000001#8] = .ok (.construct, []) := rfl

/-- `rsv = 0`, `s = 1`, `op = 0x01`, then the seed; the second word has the bits of a header and is a seed (R64). -/
theorem test_decode_constructS :
    decode [0b00000000000000000000000#23 ++ 0b1#1 ++ 0b00000001#8, 0x00000002#32] = .ok (.constructS 2#32, []) := rfl

/-- `rsv = 0`, `s = 0`, `op = 0x02`, then nine different operand words (R63, format P). -/
theorem test_decode_process :
    decode [0b00000000000000000000000#23 ++ 0b0#1 ++ 0b00000010#8, 1#32, 2#32, 3#32, 4#32, 5#32, 6#32, 7#32, 8#32, 9#32] =
      .ok (.process ⟨1#32, 2#32⟩ ⟨3#32, 4#32⟩ ⟨5#32, 6#32⟩ ⟨7#32, 8#32⟩ 9#32, []) := rfl

/-- The illegal headers of spec/95_test_vectors.md section 3.1. -/
theorem test_decode_illegal :
    [0x00000000#32, 0x00000003#32, 0x00000102#32, 0x00000201#32, 0x80000002#32, 0x3F000000#32, 0xFFFFFFFF#32].map
        (fun h => (packetLength h, (decode [h]).toBool)) = List.replicate 7 (1, false) := by decide +kernel

theorem test_decode_illegal_header : decode [0x00000102#32] = .error (.illegalHeader 0x00000102#32) := rfl

/-- The rows of spec/opcode_table.json, with every bit above the header zero. -/
theorem test_table_rows :
    decodeTableWord 32 0x1 = some .construct ∧ decodeTableWord 64 0x00000007_00000101 = some (.constructS 7#32) ∧
    decodeTableWord 32 0x2 = some (.process ⟨0#32, 0#32⟩ ⟨0#32, 0#32⟩ ⟨0#32, 0#32⟩ ⟨0#32, 0#32⟩ 0#32) ∧
    decodeTableWord 32 0x3 = none := by decide

/-- `withFetchWord` makes the very next step run the row's command. -/
theorem test_fetch_word_construct :
    got State.rspq (step (State.reset.withFetchWord 32 0x1)) = some [0x00000001#32] := by decide +kernel
theorem test_fetch_word_process :
    got status (step (State.reset.withFetchWord 320 (2 + 2 ^ 32 * 0xFFFFFFF0 + 2 ^ 64 * 0x20))) =
      some (true, 2#4, 0#32, [0x00000202#32]) := by decide +kernel

/-! The assembler, spec/30_encoding.md R71 -/

theorem test_assemble_construct : assemble "construct  # seed 0".toList = some [0x00000001#32] := by decide +kernel
theorem test_assemble_constructS : assemble "construct.s 7".toList = some [0x00000101#32, 0x00000007#32] := by
  decide +kernel
theorem test_assemble_process :
    assemble "process 0x100, 64, 0x140, 64, 0x180, 64, 0x1C0, 64, 64\n".toList =
      some [0x00000002#32, 0x00000100#32, 0x00000040#32, 0x00000140#32, 0x00000040#32, 0x00000180#32, 0x00000040#32,
        0x000001C0#32, 0x00000040#32, 0x00000040#32] := by decide +kernel
theorem test_assemble_out_of_range : assemble "construct.s 4294967296".toList = none := by decide +kernel

/-! The permutation table generator -/

/-- V-LCG, spec/95_test_vectors.md section 2.1. -/
theorem test_lcg :
    lcgNext 0x00000000#32 = 0x3C6EF35F#32 ∧ lcgNext 0x3C6EF35F#32 = 0x47502932#32 ∧
    lcgNext 0x47502932#32 = 0xD1CCF6E9#32 ∧ lcgNext 0x00000001#32 = 0x3C88596C#32 ∧
    lcgNext 0x7FFFFFFF#32 = 0xBC558D52#32 ∧ lcgNext 0x80000000#32 = 0xBC6EF35F#32 ∧
    lcgNext 0xFFFFFFFF#32 = 0x3C558D52#32 ∧ lcgNext 0xDEADBEEF#32 = 0x6AABDF82#32 := by decide

/-- The shuffle trace of section 2.2: unsigned remainders, of a draw with bit 31 set too. -/
theorem test_swap_index :
    swapIndex 0x3C6EF35F#32 255 = 95 ∧ swapIndex 0x47502932#32 254 = 242 ∧ swapIndex 0xD1CCF6E9#32 253 = 165 ∧
    swapIndex 0xE96708E5#32 1 = 1 := by decide

/-- V-PERM0, section 2.2: all 256 entries. -/
theorem test_perm_zero : (buildPermutation 0#32).toList = permZero.map (BitVec.ofNat 8) := by decide +kernel

theorem build_zero : buildPermutation 0#32 = tableZero := by
  apply Vector.toList_inj.mp
  rw [test_perm_zero]
  rfl

/-! Arithmetic -/

/-- FADE, section 2.3. -/
theorem test_fade :
    fade 0x3E000000#32 = 0x3C838000#32 ∧ fade 0x3DCCCCCD#32 = 0x3C0C3F3F#32 ∧ fade 0x3F19999A#32 = 0x3F2EBC41#32 ∧
    fade 0x3A83126F#32 = 0x322B8A88#32 ∧ fade 0x3F7FBE77#32 = 0x3F7FFFF1#32 ∧ fade 0x3F7FFFFF#32 = 0x3F800006#32 := by
  decide +kernel

/-- LATTICE, section 2.4. -/
theorem test_lattice :
    latticeIndex 0 0xC0300000#32 = 253 ∧ latticeIndex 0 0xBF000000#32 = 255 ∧ latticeIndex 0 0x80000001#32 = 255 ∧
    latticeIndex 0 0x43800000#32 = 0 ∧ latticeIndex 0 0xC37F8000#32 = 0 ∧ latticeIndex 0 0xC47A1000#32 = 23 ∧
    latticeIndex 0 0x4B800001#32 = 2 ∧ latticeIndex 0 0xCEFFFFFF#32 = 128 ∧ latticeIndex 0 0x7F7FFFFF#32 = 0 := by
  decide +kernel

/-- FRAC, section 2.4. -/
theorem test_frac :
    frac 0xC0300000#32 = 0x3E800000#32 ∧ frac 0xBEFFFFFF#32 = 0x3F000000#32 ∧ frac 0xB3800000#32 = 0x3F7FFFFF#32 ∧
    frac 0xB3000000#32 = 0x3F800000#32 ∧ frac 0x00000001#32 = 0x00000001#32 ∧ frac 0x80000000#32 = 0x00000000#32 := by
  decide +kernel

/-- `GRAD(h, +0, -1.0, -1.0)` for `h` = 0 to 15, and a selector with its high bits set, section 2.5. -/
theorem test_grad :
    (List.range 16).map (fun h => grad h 0x00000000#32 0xBF800000#32 0xBF800000#32) =
      [0xBF800000#32, 0xBF800000#32, 0x3F800000#32, 0x3F800000#32, 0xBF800000#32, 0xBF800000#32, 0x3F800000#32,
        0x3F800000#32, 0xC0000000#32, 0x00000000#32, 0x00000000#32, 0x40000000#32, 0xBF800000#32, 0x00000000#32,
        0xBF800000#32, 0x40000000#32] ∧
    grad 0xF3 0x3E800000#32 0x3F000000#32 0xBF400000#32 = 0xBF400000#32 := by decide +kernel

/-- LERP, section 2.6. -/
theorem test_lerp :
    lerp 0x3DD40000#32 0x3E800000#32 0xBF200000#32 = 0x3E234000#32 ∧
    lerp 0x00000000#32 0x80000000#32 0x3F800000#32 = 0x00000000#32 ∧
    lerp 0x00000000#32 0x80000000#32 0xBF800000#32 = 0x80000000#32 ∧
    lerp 0x3F800000#32 0x3DCCCCCD#32 0x3F333333#32 = 0x3F333333#32 := by decide +kernel

/-- The hash chain of V-E4, section 2.7: values above 255. -/
theorem test_chain : chain tableZero 255 254 253 = ⟨349, 474, 385, 256, 255, 261⟩ := by decide +kernel

/-- V-E1, V-E2, V-E3, V-E4 and V-E6, section 2.7. -/
theorem test_evaluate :
    evaluate 0 tableZero 0x00000000#32 0x00000000#32 0x00000000#32 = 0x00000000#32 ∧
    evaluate 0 tableZero 0x3F000000#32 0x3F000000#32 0x3F000000#32 = 0xBE000000#32 ∧
    evaluate 0 tableZero 0x3FC00000#32 0x40100000#32 0x40700000#32 = 0xBCF4EB00#32 ∧
    evaluate 0 tableZero 0xBF000000#32 0xBFA00000#32 0xC0300000#32 = 0xBE183900#32 ∧
    evaluate 0 tableZero 0x437F8000#32 0x437F8000#32 0x437F8000#32 = 0x3E800000#32 := by decide +kernel

/-- V-E13, V-E14, V-E15 and V-E17, section 2.7: inexact inputs, weights above 1, and a negative zero. -/
theorem test_evaluate_inexact :
    evaluate 0 tableZero 0x40466666#32 0x40966666#32 0xC1133333#32 = 0x3CB9D140#32 ∧
    evaluate 0 tableZero 0x3F7FBE77#32 0x3A83126F#32 0x42C93333#32 = 0xBDA70848#32 ∧
    evaluate 0 tableZero 0x3F7FFFFF#32 0x3F7FFFFF#32 0x3F7FFFFF#32 = 0x36100000#32 ∧
    evaluate 0 tableZero 0x00000000#32 0x420C0000#32 0x00000000#32 = 0x80000000#32 := by decide +kernel

/-! The commands -/

/-- CONSTRUCT, R96: the response, and the first entries of the table. -/
theorem test_construct :
    got (fun t => (t.rspq, t.perm)) (exec .construct { start [] with perm := Vector.replicate 256 7#8 }) =
      some ([0x00000001#32], tableZero) := by
  simp only [exec, execConstruct, build_zero]
  decide +kernel

/-- CONSTRUCT.S with the seed 0 builds the table of CONSTRUCT, and its response is the same, R97. -/
theorem test_constructS :
    got (fun t => (t.rspq, t.perm)) (exec (.constructS 0#32) { start [] with perm := Vector.replicate 256 7#8 }) =
      some ([0x00000001#32], tableZero) := by
  simp only [exec, execConstructS, build_zero]
  decide +kernel

/-- The memory of the first two samples of program P1, section 4: the points (0, 0, 0) and (0.5, 0.5, 0.5). -/
def memoryOfP1 : Memory := writeCell (writeCell (writeCell [] 0x11 0x3F000000#32) 0x21 0x3F000000#32) 0x31 0x3F000000#32

/-- PROCESS, program P1: the outputs of V-E1 and V-E2, and an element past the count left alone. -/
theorem test_process :
    got (fun t => (t.rspq, readCell t.mem 0x40, readCell t.mem 0x41, readCell t.mem 0x42))
      (exec (.process ⟨0x10#32, 4#32⟩ ⟨0x20#32, 4#32⟩ ⟨0x30#32, 4#32⟩ ⟨0x40#32, 4#32⟩ 2#32)
        { start [] with mem := writeCell memoryOfP1 0x42 0x12345678#32 }) =
      some ([0x00000002#32], 0x00000000#32, 0xBE000000#32, 0x12345678#32) := by decide +kernel

/-- The checks of PROCESS, section 3.2, rows 3, 4, 7, 8, 12 and 13. -/
theorem test_process_checks :
    checkProcess Config.default ⟨0x100, 64⟩ ⟨0x140, 64⟩ ⟨0x180, 64⟩ ⟨0x1C0, 32⟩ 64 = some (.bufferTooShort, 3) ∧
    checkProcess Config.default ⟨0x100, 63⟩ ⟨0x140, 64⟩ ⟨0x180, 64⟩ ⟨0x1C0, 32⟩ 64 = some (.bufferTooShort, 0) ∧
    checkProcess Config.default ⟨0x100, 3⟩ ⟨0x140, 64⟩ ⟨0x180, 64⟩ ⟨0xFFFFFFFF, 2⟩ 4 = some (.badDescriptor, 3) ∧
    checkProcess Config.default ⟨0xFFFFFFF0, 0x10⟩ ⟨0x140, 64⟩ ⟨0x180, 64⟩ ⟨0x1C0, 64⟩ 16 = none ∧
    checkProcess Config.default ⟨0x100, 64⟩ ⟨0x140, 64⟩ ⟨0x180, 64⟩ ⟨0x1A0, 64⟩ 64 = some (.bufferOverlap, 2) ∧
    checkProcess Config.default ⟨0x100, 64⟩ ⟨0x140, 64⟩ ⟨0x180, 64⟩ ⟨0x120, 64⟩ 16 = none := by decide +kernel

/-! Witnesses: values that meet all the hypotheses of a statement together, for each clause at a bound of its range -/

/-- One PROCESS packet and its command: `process 0x10, 2, 0x20, 2, 0x30, 2, 0x40, 2, 2`. -/
abbrev bufX : Descriptor := ⟨0x10#32, 2#32⟩
abbrev bufY : Descriptor := ⟨0x20#32, 2#32⟩
abbrev bufZ : Descriptor := ⟨0x30#32, 2#32⟩
abbrev bufO : Descriptor := ⟨0x40#32, 2#32⟩

/-- `start` with all the words of that packet received but the last. -/
def nineWords (host : List HostEvent) : State :=
  { start host with
    cmdbuf := [0x00000002#32, 0x10#32, 2#32, 0x20#32, 2#32, 0x30#32, 2#32, 0x40#32, 2#32] }

theorem witness_DecoderIsExactlyTheEncoding :
    decode [0x00000101#32, 5#32, 9#32] = .ok (.constructS 5#32, [9#32]) ∧ decode [0x00000002#32] = .error .incomplete ∧
    decode [0x00000000#32] = .error (.illegalHeader 0#32) := ⟨rfl, rfl, rfl⟩

theorem witness_PacketLengthFromHeaderAlone :
    (0x00000000#32 : Word) ≠ 0x00000101#32 ∧ (0x00000000#32 : Word) ≠ 0x00000002#32 := by decide

theorem witness_StepRunsTheDecodedCommand :
    let s := nineWords [.word 2#32]
    s.host = .word 2#32 :: [] ∧ s.faulted = false ∧ s.rspHold = none ∧
      Instr.wellFormed (.process bufX bufY bufZ bufO 2#32) = true ∧ decode (s.cmdbuf ++ [2#32]) = .ok (.process bufX bufY bufZ bufO 2#32, []) :=
  ⟨rfl, rfl, rfl, rfl, rfl⟩

theorem witness_IncompletePacketWaits :
    let s := start [.word 0x00000002#32]
    s.host = .word 0x00000002#32 :: [] ∧ s.faulted = false ∧ s.rspHold = none ∧
      decode (s.cmdbuf ++ [0x00000002#32]) = .error .incomplete := ⟨rfl, rfl, rfl, rfl⟩

theorem witness_IllegalHeaderEntersTheFault :
    let s := start [.word 0x00000003#32]
    s.host = .word 0x00000003#32 :: [] ∧ s.faulted = false ∧ s.rspHold = none ∧ s.cmdbuf = [] ∧
      (0x00000003#32 : Word) ≠ 0x00000001#32 ∧ (0x00000003#32 : Word) ≠ 0x00000101#32 ∧
      (0x00000003#32 : Word) ≠ 0x00000002#32 := ⟨rfl, rfl, rfl, rfl, by decide, by decide, by decide⟩

theorem witness_OperandWordsAreNeverHeaders :
    let s : State := { start [.word 0x00000003#32] with cmdbuf := [0x00000101#32] }
    s.host = .word 0x00000003#32 :: [] ∧ s.faulted = false ∧ s.cause = 0#4 ∧ s.cmdbuf ≠ [] ∧ partialPacket s.cmdbuf ∧
      ∃ t, step s = .next t := ⟨rfl, rfl, rfl, by decide, .inr (.inl rfl), _, rfl⟩

theorem witness_CommandStreamRunsItsCommandsInOrder : (start []).cmdbuf = [] := rfl

theorem witness_WaitsAreNotSteps :
    (start []).host = [] ∧
    ((faultedStart [.word 1#32]).host = .word 1#32 :: [] ∧ (faultedStart [.word 1#32]).faulted = true) ∧
    ((heldStart [.word 1#32]).host = .word 1#32 :: [] ∧ (heldStart [.word 1#32]).faulted = false ∧
      (heldStart [.word 1#32]).rspHold ≠ none) ∧
    ((start [.takeResponse]).host = .takeResponse :: [] ∧ (start [.takeResponse]).rspq = []) :=
  ⟨rfl, ⟨rfl, rfl⟩, ⟨rfl, rfl, by decide⟩, rfl, rfl⟩

/-- The largest finite number plus a little less than half of its last place, and plus exactly half. -/
theorem witness_AdditionRoundsToNearestEven :
    (isFinite 0x7F7FFFFF#32 = true ∧ isFinite 0x72FFFFFF#32 = true ∧
      |scaled 0x7F7FFFFF#32 + scaled 0x72FFFFFF#32| < 2 ^ 277 - 2 ^ 252) ∧
    (isFinite 0x7F7FFFFF#32 = true ∧ isFinite 0x73000000#32 = true ∧
      2 ^ 277 - 2 ^ 252 ≤ |scaled 0x7F7FFFFF#32 + scaled 0x73000000#32|) := by decide +kernel

/-- The largest finite number by 1, and `18631 * (1801 * 2^103)`, which is the bound itself. -/
theorem witness_MultiplicationRoundsToNearestEven :
    (isFinite 0x7F7FFFFF#32 = true ∧ isFinite 0x3F800000#32 = true ∧
      |scaled 0x7F7FFFFF#32 * scaled 0x3F800000#32| < (2 ^ 277 - 2 ^ 252) * 2 ^ 149) ∧
    (isFinite 0x46918E00#32 = true ∧ isFinite 0x78612000#32 = true ∧
      (2 ^ 277 - 2 ^ 252) * 2 ^ 149 ≤ |scaled 0x46918E00#32 * scaled 0x78612000#32|) := by decide +kernel

theorem witness_NaNAndInfinityBehaveAsTheStandardSays :
    isNaN 0x7F800001#32 = true ∧ (isZero 0x80000000#32 = true ∧ isInf 0xFF800000#32 = true) ∧
    (isInf 0x7F800000#32 = true ∧ isFinite 0xFF7FFFFF#32 = true) ∧
    (isInf 0xFF800000#32 = true ∧ isNaN 0x00000001#32 = false ∧ isZero 0x00000001#32 = false) := by decide +kernel

theorem witness_SignedZerosFollowTheRounding :
    isFinite 0x7F7FFFFF#32 = true ∧
    (isFinite 0x00000001#32 = true ∧ isFinite 0x80000001#32 = true ∧ isZero 0x00000001#32 = false ∧
      isZero 0x80000001#32 = false ∧ scaled 0x00000001#32 + scaled 0x80000001#32 = 0) ∧
    (isFinite 0x00000001#32 = true ∧ isFinite 0x80000001#32 = true ∧
      isZero (fmul 0x00000001#32 0x80000001#32) = true) ∧
    (isZero 0xFF800000#32 = false ∧ isNaN 0xFF800000#32 = false ∧ isZero 0x80000000#32 = true) := by decide +kernel

/-- `2^23`, the smallest and the largest number between 0 and 1, their negatives, and a NaN. -/
theorem witness_FloorIsTheGreatestIntegerNotAbove :
    (isFinite 0x4B000000#32 = true ∧ 2 ^ 172 ≤ |scaled 0x4B000000#32|) ∧
    (isFinite 0x00000001#32 = true ∧ 0 < scaled 0x00000001#32 ∧ scaled 0x00000001#32 < 2 ^ 149) ∧
    (isFinite 0x3F7FFFFF#32 = true ∧ 0 < scaled 0x3F7FFFFF#32 ∧ scaled 0x3F7FFFFF#32 < 2 ^ 149) ∧
    (isFinite 0x80000001#32 = true ∧ -(2 ^ 149) < scaled 0x80000001#32 ∧ scaled 0x80000001#32 < 0) ∧
    (isFinite 0xBF7FFFFF#32 = true ∧ -(2 ^ 149) < scaled 0xBF7FFFFF#32 ∧ scaled 0xBF7FFFFF#32 < 0) ∧
    isNaN 0xFFFFFFFF#32 = true := by decide +kernel

theorem witness_LatticeIndexIsTheFloorModulo256 : isFinite 0xFF7FFFFF#32 = true := by decide +kernel

/-- Zero, `-0.5`, `-2^-25`, and the number just below zero. -/
theorem witness_FractionalPartIsBetweenZeroAndOne :
    (isFinite 0x80000000#32 = true ∧ 0 ≤ scaled 0x80000000#32) ∧
    (isFinite 0xBF000000#32 = true ∧ scaled 0xBF000000#32 ≤ -(2 ^ 148)) ∧
    (isFinite 0xB3000000#32 = true ∧ -(2 ^ 124) ≤ scaled 0xB3000000#32 ∧ scaled 0xB3000000#32 < 0) ∧
    (isFinite 0x80000001#32 = true ∧ -(2 ^ 124) ≤ scaled 0x80000001#32 ∧ scaled 0x80000001#32 < 0) := by
  decide +kernel

theorem witness_FadeTakesTheValuesOfTheRule : isNaN 0x7FC00000#32 = true := by decide +kernel

theorem witness_HashReducesItsIndexModulo256 : (255 : Nat) < 256 ∧ (0 : Nat) < 256 := by decide

theorem witness_HashChainFitsNineBitsAndWrapsInEight : (255 : Nat) < 256 ∧ (255 : Nat) < 256 ∧ (255 : Nat) < 256 := by
  decide

theorem witness_GradientFollowsItsTable : ∀ h < 16, (0xF0 + h) % 16 = h := by decide

theorem witness_LerpAtWeightZeroIsTheNearValue :
    isFinite 0x00000001#32 = true ∧ isZero 0x00000001#32 = false ∧
      isFinite (fsub 0x7F7FFFFF#32 0x00000001#32) = true := by decide +kernel

theorem witness_NonFiniteCoordinateGivesANaN :
    isFinite 0x7F800000#32 = false ∨ isFinite 0x00000000#32 = false ∨ isFinite 0x00000000#32 = false := by decide +kernel

theorem witness_NanDrawIsAnyNaNAndNothingElse : expField 0xFF800001#32 = 255 ∧ fracField 0xFF800001#32 ≠ 0 := by
  decide +kernel

theorem witness_EvaluateIsPureOnFiniteCoordinates :
    isFinite 0x7F7FFFFF#32 = true ∧ isFinite 0x80000001#32 = true ∧ isFinite 0x00000000#32 = true := by decide +kernel

/-- The point of V-E4, whose lattice indices are 255, 254 and 253. -/
theorem witness_EvaluateIsTheSevenLerpsOfTheEightGradients :
    isFinite 0xBF000000#32 = true ∧ isFinite 0xBFA00000#32 = true ∧ isFinite 0xC0300000#32 = true ∧
      ((255 : Nat) : Int) = scaled 0xBF000000#32 / 2 ^ 149 % 256 ∧
      ((254 : Nat) : Int) = scaled 0xBFA00000#32 / 2 ^ 149 % 256 ∧
      ((253 : Nat) : Int) = scaled 0xC0300000#32 / 2 ^ 149 % 256 := by decide +kernel

theorem witness_FiniteCoordinatesGiveAFiniteSample :
    isFinite 0xFF7FFFFF#32 = true ∧ isFinite 0x3F7FFFFF#32 = true ∧ isFinite 0x00000001#32 = true := by decide +kernel

/-- 0.5 and -255.5, one period apart (V-E5c). -/
theorem witness_NoiseHasPeriod256OnEachAxis :
    isFinite 0x3F000000#32 = true ∧ isFinite 0xC37F8000#32 = true ∧
      scaled 0xC37F8000#32 = scaled 0x3F000000#32 + (-1) * (256 * 2 ^ 149) := by decide +kernel

/-- The point (1, -3, -0). -/
theorem witness_NoiseVanishesAtLatticePoints :
    isFinite 0x3F800000#32 = true ∧ isFinite 0xC0400000#32 = true ∧ isFinite 0x80000000#32 = true ∧
      (2 ^ 149 : Int) ∣ scaled 0x3F800000#32 ∧ (2 ^ 149 : Int) ∣ scaled 0xC0400000#32 ∧
      (2 ^ 149 : Int) ∣ scaled 0x80000000#32 := by decide +kernel

/-- The output buffer is one cell too long for the address space; the three inputs fit. -/
theorem witness_BadDescriptorFaultsOnTheLowestBuffer :
    let o : Descriptor := ⟨0xFFFFFFFF#32, 2#32⟩
    [bufX, bufY, bufZ, o][3]? = some o ∧ 2 ^ (start []).cfg.aw < o.base.toNat + o.len.toNat ∧
      ∀ b' < 3, ∀ d', [bufX, bufY, bufZ, o][b']? = some d' → d'.base.toNat + d'.len.toNat ≤ 2 ^ (start []).cfg.aw := by
  refine ⟨rfl, by decide, fun b' hb d' hd => ?_⟩
  interval_cases b' <;> obtain rfl : _ = d' := by simpa using hd
  all_goals decide

/-- The output buffer is one element short of the count; the three inputs are just long enough. -/
theorem witness_ShortBufferFaultsOnTheLowestBuffer :
    let o : Descriptor := ⟨0x40#32, 1#32⟩
    (∀ e ∈ [bufX, bufY, bufZ, o], e.base.toNat + e.len.toNat ≤ 2 ^ (start []).cfg.aw) ∧
      [bufX, bufY, bufZ, o][3]? = some o ∧ o.len.toNat < (2#32).toNat ∧
      ∀ b' < 3, ∀ d', [bufX, bufY, bufZ, o][b']? = some d' → (2#32).toNat ≤ d'.len.toNat := by
  refine ⟨by decide, rfl, by decide, fun b' hb d' hd => ?_⟩
  interval_cases b' <;> obtain rfl : _ = d' := by simpa using hd
  all_goals decide

/-- The last cell of in_z is the first cell of the output; in_x and in_y only come close. -/
theorem witness_OverlapFaultsOnTheLowestInput :
    let o : Descriptor := ⟨0x31#32, 2#32⟩
    (∀ e ∈ [bufX, bufY, bufZ, o], e.base.toNat + e.len.toNat ≤ 2 ^ (start []).cfg.aw ∧ (2#32).toNat ≤ e.len.toNat) ∧
      0 < (2#32).toNat ∧ [bufX, bufY, bufZ][2]? = some bufZ ∧ bufZ.base.toNat < o.base.toNat + (2#32).toNat ∧
      o.base.toNat < bufZ.base.toNat + (2#32).toNat ∧
      ∀ b' < 2, ∀ d', [bufX, bufY, bufZ][b']? = some d' →
        d'.base.toNat + (2#32).toNat ≤ o.base.toNat ∨ o.base.toNat + (2#32).toNat ≤ d'.base.toNat := by
  refine ⟨by decide, by decide, rfl, by decide, by decide, fun b' hb d' hd => ?_⟩
  interval_cases b' <;> obtain rfl : _ = d' := by simpa using hd
  all_goals decide

/-- A legal PROCESS at the bounds: in_x ends with the address space, and the output begins where in_z ends. -/
theorem legal_at_the_bounds :
    ProcessLegal (start []).cfg ⟨0xFFFFFFFE#32, 2#32⟩ bufY bufZ ⟨0x32#32, 2#32⟩ 2#32 := by
  unfold ProcessLegal
  decide

theorem backed_by_default (x y z o : Descriptor) (n : Word) : AccessesBacked (start []).cfg x y z o n :=
  fun _ _ _ _ => rfl

theorem witness_ProcessWritesTheNoiseOfItsInputs :
    (start []).mem.wf ∧ ProcessLegal (start []).cfg ⟨0xFFFFFFFE#32, 2#32⟩ bufY bufZ ⟨0x32#32, 2#32⟩ 2#32 ∧
      AccessesBacked (start []).cfg ⟨0xFFFFFFFE#32, 2#32⟩ bufY bufZ ⟨0x32#32, 2#32⟩ 2#32 :=
  ⟨by decide, legal_at_the_bounds, backed_by_default _ _ _ _ _⟩

/-- Four times the same buffer, ending with the address space. -/
theorem witness_ProcessOfZeroSamplesAccessesNothing :
    let d : Descriptor := ⟨0xFFFFFFFF#32, 1#32⟩
    ∀ e ∈ [d, d, d, d], e.base.toNat + e.len.toNat ≤ 2 ^ (start []).cfg.aw := by decide

theorem witness_ProcessOnAnUnbackedCellTakesNoStep :
    ProcessLegal unbackedStart.cfg bufX bufY bufZ bufO 2#32 ∧ ¬ AccessesBacked unbackedStart.cfg bufX bufY bufZ bufO 2#32 := by
  refine ⟨by unfold ProcessLegal; decide, fun h => ?_⟩
  exact absurd (h bufO (by decide) 0 (by decide)) (by decide)

theorem witness_SamplesMayRunInAnyOrder :
    (start []).mem.wf ∧ ProcessLegal (start []).cfg bufX bufY bufZ bufO 2#32 ∧ AccessesBacked (start []).cfg bufX bufY bufZ bufO 2#32 ∧
      [1, 0].Perm (List.range (2#32).toNat) :=
  ⟨by decide, by unfold ProcessLegal; decide, backed_by_default _ _ _ _ _, by decide⟩

theorem witness_FaultingProcessHasDoneNothingElse :
    (start []).faulted = false ∧
      ∃ t, exec (.process bufX bufY bufZ ⟨0x40#32, 1#32⟩ 2#32) (start []) = .next t ∧ t.faulted = true :=
  ⟨rfl, _, rfl, rfl⟩

theorem witness_ProcessTouchesOnlyItsOutputCells :
    (start []).mem.wf ∧ ∃ t, exec (.process bufX bufY bufZ ⟨0x40#32, 1#32⟩ 2#32) (start []) = .next t := ⟨by decide, _, rfl⟩

theorem witness_EveryCommandEndsOnBackedMemory : ∀ a, cellBacked (start []).cfg a = true := fun _ => rfl

theorem witness_EveryCommandPostsOneResponse :
    (start []).faulted = false ∧ (start []).cause = 0#4 ∧ ∃ t, exec (.constructS 1#32) (start []) = .next t :=
  ⟨rfl, rfl, _, rfl⟩

theorem witness_FullQueueHoldsTheCommandUntilAResponseIsTaken :
    let s := fullStart [.takeResponse]
    s.hasRoom = false ∧ s.rspq = 1#32 :: [] ∧ s.host = .takeResponse :: [] ∧ ∃ t, exec .construct s = .next t :=
  ⟨rfl, rfl, rfl, _, rfl⟩

theorem witness_TakingAResponseRemovesTheFrontWord :
    let s := fullStart [.takeResponse]
    s.host = .takeResponse :: [] ∧ s.rspq = 1#32 :: [] ∧ s.rspHold = none := ⟨rfl, rfl, rfl⟩

theorem witness_FaultedCoreIsInertUntilReset :
    let s := faultedStart [.takeResponse]
    s.faulted = true ∧ s.rspHold = none ∧ (∃ t, step s = .next t) ∧ s.host.head? ≠ some .reset ∧
      ∀ cell value, s.host.head? ≠ some (.store cell value) :=
  ⟨rfl, rfl, ⟨_, rfl⟩, by decide, fun _ _ h => by simp [faultedStart, start] at h⟩

theorem witness_ResetRestoresTheCoreAndKeepsTheMemory : (faultedStart [.reset]).host = .reset :: [] := rfl

theorem witness_ResetDuringProcessLeavesOldOrNewCells :
    let s := nineWords [.wordCutByReset 2#32]
    s.host = .wordCutByReset 2#32 :: [] ∧ s.faulted = false ∧ s.rspHold = none ∧ s.mem.wf ∧
      decode (s.cmdbuf ++ [2#32]) = .ok (.process bufX bufY bufZ bufO 2#32, []) ∧ ProcessLegal s.cfg bufX bufY bufZ bufO 2#32 :=
  ⟨rfl, rfl, rfl, by decide, rfl, by unfold ProcessLegal; decide⟩

/-- A table that is not the one a construction builds is replaced by it. -/
theorem witness_OnlyConstructionsWriteTheTable :
    let s : State := { start [.word 1#32] with perm := Vector.replicate 256 7#8 }
    ∃ t, step s = .next t ∧ t.perm ≠ s.perm := by
  refine ⟨_, rfl, ?_⟩
  show buildPermutation 0#32 ≠ _
  rw [build_zero]
  decide +kernel

theorem witness_OnlyProcessAndTheHostChangeTheMemory :
    let s := start [.store 5#32 9#32]
    ∃ t, step s = .next t ∧ t.mem ≠ s.mem := ⟨_, rfl, by decide +kernel⟩

theorem witness_StepConsumesOneEventAndKeepsTheConfiguration : ∃ t, step (start [.reset]) = .next t := ⟨_, rfl⟩

/-- A store to the last cell of a window, and one to the cell just past it. -/
theorem witness_HostStoresOnlyOutsideTheWindows :
    let s (cell : Word) : State :=
      { start [.store cell 9#32] with rspq := [2#32], windows := [[⟨0x10, 0x12⟩]] }
    ((s 0x11#32).host = .store 0x11#32 9#32 :: [] ∧
      ∃ window ∈ (s 0x11#32).windows, ∃ r ∈ window, r.first ≤ (0x11#32).toNat ∧ (0x11#32).toNat < r.past) ∧
    ((s 0x12#32).host = .store 0x12#32 9#32 :: [] ∧
      (∀ window ∈ (s 0x12#32).windows, ∀ r ∈ window, (0x12#32).toNat < r.first ∨ r.past ≤ (0x12#32).toNat) ∧
      (0x12#32).toNat < 2 ^ (s 0x12#32).cfg.aw ∧ cellBacked (s 0x12#32).cfg (0x12#32).toNat = true) := by
  refine ⟨⟨rfl, by decide⟩, rfl, by decide, by decide, rfl⟩

theorem witness_CellsAreLittleEndian : Memory.wf (writeCell [] 3 0xA1B2C3D4#32) ∧ (3 : Nat) < 4 := by decide +kernel

/-- R43 on a word of four different bytes. -/
theorem test_little_endian :
    (List.range 4).map (fun i => readByte (writeCell [] 3 0xA1B2C3D4#32) (12 + i)) =
      [0xD4#8, 0xC3#8, 0xB2#8, 0xA1#8] := by decide +kernel

theorem permZero_counts : ∀ v : Byte, (permZero.map (BitVec.ofNat 8)).count v = 1 := by decide +kernel

/-- The invariant and a step from a state that is not the reset state: a response waits to be taken. -/
theorem witness_EveryStepKeepsTheInvariant :
    let s := fullStart [.takeResponse]
    s.Inv ∧ ∃ t, step s = .next t := by
  refine ⟨⟨by decide, permZero_counts, by decide, by decide, ⟨rfl, rfl⟩, .inl rfl, by decide, ?_, by decide, rfl⟩, _, rfl⟩
  intro depth h
  obtain rfl : 1 = depth := by simpa [fullStart] using h
  decide

end Sys2Proof.Tests
end

section
/-! PROOFS. What every step of the core does with the host's list and with the configuration (spec/00_scope.md R9,
spec/30_encoding.md R60): each operation that a step is made of leaves both alone, and the step itself takes one event. -/

namespace Sys2Proof.Proofs

open Sys2Proof.Machine

/-! The operations, one lemma each: the host's list and the configuration stay. -/

theorem takeResponse_keeps_host_cfg {s t : State} (h : takeResponse s = .next t) :
    t.host = s.host ∧ t.cfg = s.cfg := by
  obtain ⟨w, rest, -, rfl⟩ := takeResponse_eq_next h
  exact ⟨rfl, rfl⟩

theorem hostStore_keeps_host_cfg {s t : State} {a : Nat} {v : Word} (h : hostStore a v s = .next t) :
    t.host = s.host ∧ t.cfg = s.cfg := by
  obtain ⟨-, -, -, rfl⟩ := hostStore_eq_next h
  exact ⟨rfl, rfl⟩

theorem processSamples_keeps_host_cfg {x y z o : Descriptor} {ks : List Nat} {s t : State}
    (h : processSamples x y z o ks s = .next t) : t.host = s.host ∧ t.cfg = s.cfg := by
  rw [processSamples_eq_next h]
  exact ⟨rfl, rfl⟩

/-- A command is driven by the words the host gave, and reads no further event. -/
theorem exec_keeps_host_cfg {i : Instr} {s t : State} (h : exec i s = .next t) :
    t.host = s.host ∧ t.cfg = s.cfg := by
  rcases exec_cases h with ⟨seed, -, rfl⟩ | ⟨x, y, z, o, n, -, ⟨c, info, -, rfl⟩ | ⟨-, u, hu, rfl⟩⟩
  case inl => exact ⟨pushRsp_host .., pushRsp_cfg ..⟩
  case inr.inl => exact ⟨raiseFault_host .., raiseFault_cfg ..⟩
  case inr.inr => simpa using processSamples_keeps_host_cfg hu

theorem abandon_keeps_host_cfg (i : Instr) (s : State) :
    (abandon i s).host = s.host ∧ (abandon i s).cfg = s.cfg := by
  obtain ⟨hframe, -⟩ := abandon_spec i s
  rw [hframe]
  exact ⟨rfl, rfl⟩

/-- The event that `step_cases` finds at the head of the list is the only one that is gone after the step. -/
theorem step_takes_event_and_keeps_cfg {s t : State} (h : step s = .next t) :
    ∃ event rest, s.host = event :: rest ∧ t.host = rest ∧ t.cfg = s.cfg := by
  obtain ⟨event, rest, hhost, hcase⟩ := step_cases h
  refine ⟨event, rest, hhost, ?_⟩
  rcases hcase with ⟨-, ht⟩ | ⟨cell, value, -, hs⟩ | ⟨-, rfl⟩ | ⟨-, -, w, hw⟩
  · exact takeResponse_keeps_host_cfg ht
  · exact hostStore_keeps_host_cfg hs
  · exact ⟨doReset_host _, doReset_cfg _⟩
  · rcases hw with ⟨i, more, -, ⟨-, he⟩ | ⟨-, rfl⟩⟩ | ⟨-, ⟨-, rfl⟩ | ⟨-, rfl⟩⟩ | ⟨hdr, -, ⟨-, rfl⟩ | ⟨-, rfl⟩⟩
    · exact exec_keeps_host_cfg he
    · exact abandon_keeps_host_cfg i { s with host := rest, cmdbuf := [] }
    · exact ⟨rfl, rfl⟩
    · exact ⟨doReset_host _, doReset_cfg _⟩
    · exact ⟨raiseFault_host .., raiseFault_cfg ..⟩
    · exact ⟨doReset_host _, doReset_cfg _⟩

/-- Settles O55, by the cases of a step: each operation keeps the list that is left once the event is taken off. -/
theorem stepConsumesOneEventAndKeepsTheConfiguration :
    Obligations.StepConsumesOneEventAndKeepsTheConfiguration := by
  intro s t h
  obtain ⟨event, rest, hhost, hrest, hcfg⟩ := step_takes_event_and_keeps_cfg h
  exact ⟨⟨event, by rw [hhost, hrest]⟩, hcfg⟩

end Sys2Proof.Proofs
end

section
/-! PROOFS. BUILD_PERMUTATION answers a permutation whatever its seed (spec/10_state.md R21,
spec/40_permutation_generator.md R92): it starts from the identity and only swaps entries. -/

namespace Sys2Proof.Proofs

open Sys2Proof.Machine

theorem identityTable_isPermutation : isPermutation identityTable := by
  intro v
  have hinj : Function.Injective fun t : Fin 256 => BitVec.ofNat 8 t.val := fun a b hab => by
    simpa [BitVec.toNat_inj.symm, Fin.ext_iff] using hab
  have hmem : v ∈ List.ofFn fun t : Fin 256 => BitVec.ofNat 8 t.val :=
    List.mem_ofFn.2 ⟨⟨v.toNat, v.isLt⟩, by simp⟩
  rw [identityTable, Vector.toList_ofFn]
  exact List.count_eq_one_of_mem (List.nodup_ofFn.2 hinj) hmem

theorem swap_isPermutation {p : PermTable} (hp : isPermutation p) {i j : Nat} (hi : i < 256) (hj : j < 256) :
    isPermutation (p.swap i j hi hj) := fun v =>
  ((Vector.swap_perm hi hj).toList.count_eq v).trans (hp v)

theorem shuffleFrom_isPermutation (i : Nat) (hi : i < 256) (lcg : Word) {p : PermTable} (hp : isPermutation p) :
    isPermutation (shuffleFrom i hi lcg p) := by
  induction i generalizing lcg p with
  | zero => exact hp
  | succ i ih => exact ih _ _ (swap_isPermutation hp _ _)

theorem buildPermutation_isPermutation (seed : Word) : isPermutation (buildPermutation seed) := by
  unfold buildPermutation
  exact shuffleFrom_isPermutation _ _ _ identityTable_isPermutation

end Sys2Proof.Proofs
end

section
/-! PROOFS. The command buffer and the status fields (spec/10_state.md R26, R27): what the decoder says of a packet that
lacks words, and the information of each fault (spec/60_exceptions.md R201). -/

namespace Sys2Proof.Proofs

open Sys2Proof.Machine

/-- A header of PROCESS asks for nine operands (R63): with them a command is read, with fewer the decoder waits. -/
theorem decode_headerProcess_cases (ops : List Word) :
    (∃ i rest, decode (headerProcess :: ops) = .ok (i, rest)) ∨
    (ops.length < 9 ∧ decode (headerProcess :: ops) = .error .incomplete) :=
  match ops with
  | _ :: _ :: _ :: _ :: _ :: _ :: _ :: _ :: _ :: _ => .inl ⟨_, _, rfl⟩
  | [] | [_] | [_, _] | [_, _, _] | [_, _, _, _] | [_, _, _, _, _] | [_, _, _, _, _, _] | [_, _, _, _, _, _, _]
  | [_, _, _, _, _, _, _, _] => .inr ⟨by simp, rfl⟩

/-- The words that the decoder waits on are an incomplete packet (R27, R73). -/
theorem partialPacket_of_decode_incomplete {ws : List Word} (h : decode ws = .error .incomplete) :
    partialPacket ws := by
  cases ws with
  | nil => exact .inl rfl
  | cons hdr ops =>
    by_cases hC : hdr = headerConstruct
    · subst hC; cases h
    by_cases hS : hdr = headerConstructS
    · subst hS
      cases ops with
      | nil => exact .inr (.inl rfl)
      | cons => cases h
    by_cases hP : hdr = headerProcess
    · subst hP
      rcases decode_headerProcess_cases ops with ⟨i, rest, hok⟩ | ⟨hshort, -⟩
      · rw [hok] at h; cases h
      · exact .inr (.inr ⟨rfl, Nat.succ_le_of_lt hshort⟩)
    · simp [decode, hC, hS, hP] at h

/-- The decoder calls no header of R65 illegal. -/
theorem illegalHeader_ne {ws : List Word} {hdr : Word} (h : decode ws = .error (.illegalHeader hdr)) :
    hdr ≠ headerConstruct ∧ hdr ≠ headerConstructS ∧ hdr ≠ headerProcess := by
  cases ws with
  | nil => cases h
  | cons w ops =>
    by_cases hC : w = headerConstruct
    · subst hC; cases h
    by_cases hS : w = headerConstructS
    · subst hS; cases ops <;> cases h
    by_cases hP : w = headerProcess
    · subst hP
      rcases decode_headerProcess_cases ops with ⟨i, rest, hok⟩ | ⟨-, hwait⟩
      · rw [hok] at h; cases h
      · rw [hwait] at h; cases h
    · obtain rfl : w = hdr := by simpa [decode, hC, hS, hP] using h
      exact ⟨hC, hS, hP⟩

/-- A legal status of the running core (R26). -/
theorem statusLegal_running : statusLegal false 0#4 0#32 := ⟨rfl, rfl⟩

theorem statusLegal_illegalCommand {ws : List Word} {hdr : Word} (h : decode ws = .error (.illegalHeader hdr)) :
    statusLegal true (causeCode .illegalCommand) hdr :=
  .inl ⟨rfl, illegalHeader_ne h⟩

theorem bufferIndex_toNat_le (b : Nat) : (bufferIndex b).toNat ≤ b := Nat.mod_le _ _

/-- The faults of PROCESS record the index of a buffer: one of four, and an input where two buffers overlap (R201). -/
theorem statusLegal_checkProcess {cfg : Config} {x y z o : Descriptor} {n info : Word} {c : FaultCause}
    (h : checkProcess cfg x y z o n = some (c, info)) : statusLegal true (causeCode c) info := by
  obtain ⟨b, rfl, hcause⟩ := checkProcess_eq_some h
  have hle := bufferIndex_toNat_le b
  have hfound : ∀ {ds : List Descriptor} {p : Descriptor → Bool}, ds.findIdx? p = some b →
      (bufferIndex b).toNat < ds.length := fun hb =>
    Nat.lt_of_le_of_lt hle (List.findIdx?_eq_some_iff_getElem.1 hb).1
  rcases hcause with ⟨rfl, hb⟩ | ⟨rfl, hb⟩ | ⟨rfl, hb⟩
  · exact .inr (.inl ⟨rfl, hfound hb⟩)
  · exact .inr (.inr (.inl ⟨rfl, hfound hb⟩))
  · exact .inr (.inr (.inr ⟨rfl, hfound hb⟩))

end Sys2Proof.Proofs
end

section
/-! PROOFS. The invariant (spec/10_state.md R21, R26, R27, R28): it holds after reset, each operation that a step is
made of keeps it, and so every step does. -/

namespace Sys2Proof.Proofs

open Sys2Proof.Machine

/-! Updates of single fields. -/

/-- The invariant does not speak of the host's list, nor of the count of draws. -/
theorem inv_set_host {s : State} (hs : s.Inv) (host : List HostEvent) : State.Inv { s with host := host } :=
  { hs with }

theorem inv_set_draws {s : State} (hs : s.Inv) (draws : Nat) : State.Inv { s with draws := draws } :=
  { hs with }

theorem inv_set_perm {s : State} (hs : s.Inv) {p : PermTable} (hp : isPermutation p) :
    State.Inv { s with perm := p } :=
  { hs with table := hp }

/-- An incomplete packet may replace another in a core that is not FAULTED. -/
theorem inv_set_cmdbuf {s : State} (hs : s.Inv) {ws : List Word} (hws : partialPacket ws)
    (hidle : s.faulted = true → ws = []) : State.Inv { s with cmdbuf := ws } :=
  { hs with packet := hws, faultedIdle := hidle }

/-- A memory in canonical form may replace another where its new bytes lie in cells of the address space. -/
theorem inv_set_mem {s : State} (hs : s.Inv) {m : Memory} (hm : m.wf)
    (hnew : ∀ c ∈ m, c ∈ s.mem ∨ c.1 / 4 < 2 ^ s.cfg.aw) : State.Inv { s with mem := m } := by
  refine { hs with memory := hm, inSpace := fun c hc => ?_ }
  rcases hnew c hc with hold | hcell
  · exact hs.inSpace c hold
  · change c.1 < 4 * 2 ^ s.cfg.aw
    omega

theorem inv_writeCell {s : State} (hs : s.Inv) {a : Nat} (ha : a < 2 ^ s.cfg.aw) (v : Word) :
    State.Inv { s with mem := writeCell s.mem a v } :=
  inv_set_mem hs (writeCell_wf hs.memory a v) fun _ hc => (mem_writeCell hc).imp_right (·.trans_lt ha)

/-! The response queue (R28). -/

/-- The queue has room exactly when it is shorter than its capacity, if it has one. -/
theorem hasRoom_iff {s : State} :
    s.hasRoom = true ↔ ∀ depth, s.cfg.rspqDepth = some depth → s.rspq.length < depth := by
  unfold State.hasRoom
  cases s.cfg.rspqDepth <;> simp

/-- A response goes to the back of a queue with room, or waits for a full one; either way its window opens. -/
theorem pushRsp_inv {s : State} (hs : s.Inv) (hidle : s.rspHold = none) (w : Word) (window : List CellRange) :
    (pushRsp w window s).Inv := by
  have hwindows : s.windows.length = s.rspq.length := by simpa [hidle] using hs.windowed
  cases hroom : s.hasRoom with
  | true =>
    rw [pushRsp_of_room hroom]
    refine { hs with queue := fun depth hd => ?_, hold := fun hh => absurd hidle hh, windowed := ?_ }
    · have hlt := hasRoom_iff.1 hroom depth hd
      simpa using hlt
    · simp [hidle, hwindows]
  | false =>
    rw [pushRsp_of_full hroom]
    exact { hs with hold := fun _ => hroom, windowed := by simp [hwindows] }

/-- Fault entry keeps the invariant where the cause and its information are legal (R201, R207). -/
theorem raiseFault_inv {s : State} (hs : s.Inv) (hidle : s.rspHold = none) {c : FaultCause} {info : Word}
    (hstatus : statusLegal true (causeCode c) info) (op : Byte) : (raiseFault c info op s).Inv :=
  have hentry : State.Inv { s with faulted := true, cause := causeCode c, finfo := info, cmdbuf := [] } :=
    { hs with status := hstatus, packet := .inl rfl, faultedIdle := fun _ => rfl }
  pushRsp_inv hentry hidle _ _

/-- Taking a response makes the room that a waiting one takes. -/
theorem takeResponse_inv {s t : State} (hs : s.Inv) (h : takeResponse s = .next t) : t.Inv := by
  obtain ⟨w, rest, hq, rfl⟩ := takeResponse_eq_next h
  have hwaiting : s.rspHold.toList.length ≤ 1 := Option.length_toList_le
  refine { hs with queue := fun depth hd => ?_, hold := fun hh => absurd rfl hh, windowed := ?_ }
  · have hle := hs.queue depth hd
    simp only [hq, List.length_cons] at hle
    simp only [List.length_append]
    omega
  · have hwindows := hs.windowed
    simp only [hq, List.length_cons] at hwindows
    simp only [List.length_tail, List.length_append, Option.toList_none, List.length_nil]
    omega

/-! Reset (R35, R240). -/

/-- Reset restores all that the invariant says of the core; the configuration and the memory it leaves as they were. -/
theorem doReset_inv_of_cfg_mem {s : State} (hcfg : s.cfg.wellFormed = true) (hmem : s.mem.wf)
    (hspace : ∀ c ∈ s.mem, c.1 < 4 * 2 ^ s.cfg.aw) : (doReset s).Inv where
  config := hcfg
  table := buildPermutation_isPermutation _
  memory := hmem
  inSpace := hspace
  status := statusLegal_running
  packet := .inl rfl
  faultedIdle := fun _ => rfl
  queue := fun _ _ => Nat.zero_le _
  hold := fun hh => absurd rfl hh
  windowed := rfl

theorem doReset_inv {s : State} (hs : s.Inv) : (doReset s).Inv :=
  doReset_inv_of_cfg_mem hs.config hs.memory hs.inSpace

/-- The state right after reset is one that reset leaves as it is. -/
theorem doReset_reset : doReset State.reset = State.reset := rfl

/-- Settles O58: reset leaves a legal core, the default configuration is legal and the memory is empty. -/
theorem invariantHoldsAfterReset : Obligations.InvariantHoldsAfterReset := by
  unfold Obligations.InvariantHoldsAfterReset
  rw [← doReset_reset]
  exact doReset_inv_of_cfg_mem rfl ⟨.nil, fun _ hc => absurd hc List.not_mem_nil⟩ fun _ hc => absurd hc List.not_mem_nil

/-! The commands. -/

theorem processSamples_inv {x y z o : Descriptor} {ks : List Nat} {s t : State} (hs : s.Inv)
    (h : processSamples x y z o ks s = .next t) : t.Inv := by
  induction ks generalizing s with
  | nil => cases h; exact hs
  | cons k ks ih =>
    obtain ⟨u, hu, hrest⟩ := andThen_eq_next.1 h
    obtain ⟨hcells, rfl⟩ := processSample_eq_next.1 hu
    exact ih (inv_writeCell hs (hcells o (by simp)).1 _) hrest

theorem exec_inv {i : Instr} {s t : State} (hs : s.Inv) (hidle : s.rspHold = none) (h : exec i s = .next t) :
    t.Inv := by
  rcases exec_cases h with ⟨seed, -, rfl⟩ | ⟨x, y, z, o, n, -, ⟨c, info, hc, rfl⟩ | ⟨-, u, hu, rfl⟩⟩
  case inl => exact pushRsp_inv (inv_set_perm hs (buildPermutation_isPermutation seed)) hidle _ _
  case inr.inl => exact raiseFault_inv hs hidle (statusLegal_checkProcess hc) _
  case inr.inr =>
    have hhold : u.rspHold = none := by rw [processSamples_eq_next hu]; exact hidle
    exact pushRsp_inv (inv_set_draws (processSamples_inv hs hu) (u.draws + n.toNat)) hhold _ _

theorem abandon_inv {s : State} (hs : s.Inv) (i : Instr) : (abandon i s).Inv := by
  obtain ⟨hframe, hwf, hnew, -⟩ := abandon_spec i s
  rw [hframe]
  exact inv_set_draws (inv_set_mem hs (hwf hs.memory) hnew) _

/-! The host, and the step. -/

theorem hostStore_inv {s t : State} {a : Nat} {v : Word} (hs : s.Inv) (h : hostStore a v s = .next t) : t.Inv := by
  obtain ⟨-, hcell, -, rfl⟩ := hostStore_eq_next h
  exact inv_writeCell hs hcell v

/-- Settles O59, by the cases of a step: each operation keeps the invariant once the event is off the host's list. -/
theorem everyStepKeepsTheInvariant : Obligations.EveryStepKeepsTheInvariant := by
  intro s t hs h
  obtain ⟨event, rest, -, hcase⟩ := step_cases h
  have hrest : State.Inv { s with host := rest } := inv_set_host hs rest
  rcases hcase with ⟨-, ht⟩ | ⟨cell, value, -, hst⟩ | ⟨-, rfl⟩ | ⟨hrun, hidle, w, hw⟩
  case inl => exact takeResponse_inv hrest ht
  case inr.inl => exact hostStore_inv hrest hst
  case inr.inr.inl => exact doReset_inv hrest
  case inr.inr.inr =>
    have hempty : State.Inv { s with host := rest, cmdbuf := [] } := inv_set_cmdbuf hrest (.inl rfl) fun _ => rfl
    rcases hw with ⟨i, more, -, ⟨-, he⟩ | ⟨-, rfl⟩⟩ | ⟨hd, ⟨-, rfl⟩ | ⟨-, rfl⟩⟩ |
      ⟨hdr, hd, ⟨-, rfl⟩ | ⟨-, rfl⟩⟩
    · exact exec_inv hempty hidle he
    · exact doReset_inv (abandon_inv hempty i)
    · exact inv_set_cmdbuf hrest (partialPacket_of_decode_incomplete hd) fun hf => by simp [hrun] at hf
    · exact doReset_inv hrest
    · exact raiseFault_inv hrest hidle (statusLegal_illegalCommand hd) _
    · exact doReset_inv hrest

end Sys2Proof.Proofs
end

section
/-! PROOFS. The host takes a response (spec/10_state.md R28, spec/30_encoding.md R74, spec/60_exceptions.md R219): the
front word goes, and a response that waited for the room follows. -/

namespace Sys2Proof.Proofs

open Sys2Proof.Machine

/-- The step of a host that takes a word: the rest of the queue stays, and a waiting response goes to its back. -/
theorem step_takeResponse {s : State} {front : Word} {more : List Word} {rest : List HostEvent}
    (hhost : s.host = .takeResponse :: rest) (hq : s.rspq = front :: more) :
    step s = .next
      { s with
        host := rest, rspq := more ++ s.rspHold.toList, rspHold := none, windows := s.windows.tail } := by
  unfold step nextAction takeResponse
  rw [hhost]
  dsimp only
  rw [hq]
  cases hhold : s.rspHold <;> simp

/-- Settles O49: with nothing waiting, the queue after the step is the old one without its front word. -/
theorem takingAResponseRemovesTheFrontWord : Obligations.TakingAResponseRemovesTheFrontWord := by
  intro s front more rest hhost hq hidle
  refine ⟨by simp [State.rspValid, hq], by simp [State.rspData, hq], ?_⟩
  rw [step_takeResponse hhost hq]
  simp [hidle]

/-- A construction's response. The table is a variable: on a built one the kernel would run the swaps to compare
states. -/
theorem responded_pushRsp_set_perm (s : State) (p : PermTable) (w : Word) (window : List CellRange) :
    Responded s (pushRsp w window { s with perm := p }) w :=
  responded_pushRsp (t := { s with perm := p }) rfl rfl rfl w window

/-- A command that answers a next state has pushed one response (R70). -/
theorem exec_responded {i : Instr} {s t : State} (h : exec i s = .next t) : ∃ w, Responded s t w := by
  rcases exec_cases h with ⟨seed, -, rfl⟩ | ⟨x, y, z, o, n, -, ⟨c, info, -, rfl⟩ | ⟨-, u, hu, rfl⟩⟩
  case inl => exact ⟨_, responded_pushRsp_set_perm ..⟩
  case inr.inl => exact ⟨_, responded_raiseFault ..⟩
  case inr.inr =>
    have hframe := processSamples_eq_next hu
    exact ⟨_, responded_pushRsp (by rw [hframe]) (by rw [hframe]) (by rw [hframe]) _ _⟩

/-- Settles O48: the command's response waits, and the host's take, which it needs, is the next step. -/
theorem fullQueueHoldsTheCommandUntilAResponseIsTaken :
    Obligations.FullQueueHoldsTheCommandUntilAResponseIsTaken := by
  intro i s t front more rest hfull hq hhost h
  obtain ⟨w, -, hwaits⟩ := exec_responded h
  obtain ⟨hqueue, hhold⟩ := hwaits hfull
  obtain ⟨hevents, -⟩ := exec_keeps_host_cfg h
  refine ⟨w, _, hhold, hqueue, by simp [State.cmdReady, hhold],
    step_takeResponse (hevents.trans hhost) (hqueue.trans hq), by simp [hhold], rfl, rfl, rfl, rfl, rfl, rfl, rfl, rfl,
    rfl⟩

end Sys2Proof.Proofs
end

section
/-! PROOFS. PROCESS on memory that is not all backed (spec/20_memory.md R46, spec/60_exceptions.md R219): an operation that
needs several cells stops at one of them, or every cell it needs exists and is backed. -/

namespace Sys2Proof.Proofs

open Sys2Proof.Machine

/-- The answer of an operation that stops at its access to cell `a`, by the reason the access gives (R40, R46). -/
def StopsAt {α : Type} (cfg : Config) (a : Nat) (answer : Access α) : Prop :=
  (2 ^ cfg.aw ≤ a ∧ answer = .fault (.addressOutsideSpace a)) ∨
    (cellBacked cfg a = false ∧ answer = .refused (.cellNotBacked a))

/-- Inside the address space, the stop is the refusal of R46. -/
theorem refused_of_stopsAt {α : Type} {cfg : Config} {a : Nat} {answer : Access α} (h : StopsAt cfg a answer)
    (ha : a < 2 ^ cfg.aw) : answer = .refused (.cellNotBacked a) ∧ cellBacked cfg a = false := by
  rcases h with ⟨hout, -⟩ | ⟨hb, he⟩
  · exact absurd ha (Nat.not_lt.2 hout)
  · exact ⟨he, hb⟩

/-- A sequence stops where its first part stops. -/
theorem stopsAt_andThen {α β : Type} {cfg : Config} {a : Nat} {p : Access α} (h : StopsAt cfg a p)
    (f : α → Access β) : StopsAt cfg a (andThen p f) := by
  rcases h with ⟨hout, rfl⟩ | ⟨hb, rfl⟩
  · exact .inl ⟨hout, rfl⟩
  · exact .inr ⟨hb, rfl⟩

/-- The operation completes, or stops at its access to one of `cells`. -/
def CompletesOrStopsIn {α : Type} (cfg : Config) (cells : Nat → Prop) (answer : Access α) : Prop :=
  (∃ v, answer = .next v) ∨ ∃ a, cells a ∧ StopsAt cfg a answer

section
variable {cfg : Config} {cells : Nat → Prop}

/-- One access is answered, or stops at its own cell. -/
theorem accessCell_completesOrStopsIn {α : Type} {a : Nat} (hcell : cells a) (v : α) :
    CompletesOrStopsIn cfg cells (accessCell cfg a v) := by
  rcases Nat.lt_or_ge a (2 ^ cfg.aw) with ha | ha
  · cases hb : cellBacked cfg a with
    | true => exact .inl ⟨v, accessCell_of_backed ha hb v⟩
    | false => exact .inr ⟨a, hcell, .inr ⟨hb, accessCell_eq_refused.2 ⟨ha, hb, rfl⟩⟩⟩
  · exact .inr ⟨a, hcell, .inl ⟨ha, accessCell_eq_fault.2 ⟨ha, rfl⟩⟩⟩

theorem andThen_completesOrStopsIn {α β : Type} {p : Access α} {f : α → Access β}
    (hp : CompletesOrStopsIn cfg cells p) (hf : ∀ v, p = .next v → CompletesOrStopsIn cfg cells (f v)) :
    CompletesOrStopsIn cfg cells (andThen p f) := by
  rcases hp with ⟨v, rfl⟩ | ⟨a, ha, hstop⟩
  · exact hf v rfl
  · exact .inr ⟨a, ha, stopsAt_andThen hstop f⟩

/-- A sample needs its three input cells and its output cell, and no other (R142). -/
theorem processSample_completesOrStopsIn {x y z o : Descriptor} {k : Nat} (s : State)
    (hcells : ∀ d ∈ [x, y, z, o], cells (elementCell d k)) :
    CompletesOrStopsIn s.cfg cells (processSample x y z o k s) :=
  andThen_completesOrStopsIn (accessCell_completesOrStopsIn (hcells x (by simp)) _) fun _ _ =>
  andThen_completesOrStopsIn (accessCell_completesOrStopsIn (hcells y (by simp)) _) fun _ _ =>
  andThen_completesOrStopsIn (accessCell_completesOrStopsIn (hcells z (by simp)) _) fun _ _ =>
  accessCell_completesOrStopsIn (hcells o (by simp)) _

theorem processSamples_completesOrStopsIn {x y z o : Descriptor} {ks : List Nat} (s : State)
    (hcells : ∀ k ∈ ks, ∀ d ∈ [x, y, z, o], cells (elementCell d k)) :
    CompletesOrStopsIn s.cfg cells (processSamples x y z o ks s) := by
  induction ks generalizing s with
  | nil => exact .inl ⟨s, rfl⟩
  | cons k ks ih =>
    obtain ⟨hk, hks⟩ := List.forall_mem_cons.1 hcells
    refine andThen_completesOrStopsIn (processSample_completesOrStopsIn s hk) fun u hu => ?_
    obtain ⟨-, rfl⟩ := processSample_eq_next.1 hu
    exact ih _ hks

end

/-- A run of samples that completes has found every cell of its samples backed. -/
theorem processSamples_backed {x y z o : Descriptor} {ks : List Nat} {s t : State}
    (h : processSamples x y z o ks s = .next t) :
    ∀ k ∈ ks, ∀ d ∈ [x, y, z, o], cellBacked s.cfg (elementCell d k) = true := by
  induction ks generalizing s with
  | nil => exact fun k hk => absurd hk List.not_mem_nil
  | cons k ks ih =>
    obtain ⟨u, hu, hrest⟩ := andThen_eq_next.1 h
    obtain ⟨hcells, rfl⟩ := processSample_eq_next.1 hu
    have hks := ih hrest
    exact List.forall_mem_cons.2 ⟨fun d hd => (hcells d hd).2, hks⟩

/-- The checks of a PROCESS bound every cell it accesses (R47, R141). -/
theorem elementCell_lt_of_legal {cfg : Config} {x y z o d : Descriptor} {n : Word} {k : Nat}
    (h : ProcessLegal cfg x y z o n) (hd : d ∈ [x, y, z, o]) (hk : k < n.toNat) : elementCell d k < 2 ^ cfg.aw := by
  obtain ⟨hbounds, -⟩ := h
  obtain ⟨hspace, hlong⟩ := hbounds d hd
  unfold elementCell
  omega

/-- A legal PROCESS is its samples and then its response. -/
theorem exec_process_of_legal {s : State} {x y z o : Descriptor} {n : Word} (h : ProcessLegal s.cfg x y z o n) :
    exec (.process x y z o n) s = processRun x y z o n s := by
  change execProcess x y z o n s = _
  unfold execProcess
  rw [checkProcess_eq_none.2 h]

/-- Settles O41: the run of samples cannot complete, so it stops at one of its cells, and the checks keep that cell inside
the address space. -/
theorem processOnAnUnbackedCellTakesNoStep : Obligations.ProcessOnAnUnbackedCellTakesNoStep := by
  intro s x y z o n hlegal hunbacked
  rw [exec_process_of_legal hlegal]
  have hsamples : CompletesOrStopsIn s.cfg (fun a => ∃ d ∈ [x, y, z, o], ∃ k < n.toNat, a = elementCell d k)
      (processSamples x y z o (List.range n.toNat) s) :=
    processSamples_completesOrStopsIn s fun k hk d hd => ⟨d, hd, k, List.mem_range.1 hk, rfl⟩
  rcases hsamples with ⟨t, ht⟩ | ⟨cell, ⟨d, hd, k, hk, rfl⟩, hstop⟩
  · exact absurd (fun d hd k hk => processSamples_backed ht k (List.mem_range.2 hk) d hd) hunbacked
  · obtain ⟨hrefused, hb⟩ :=
      refused_of_stopsAt (stopsAt_andThen hstop _) (elementCell_lt_of_legal hlegal hd hk)
    exact ⟨elementCell d k, hrefused, hb, d, hd, k, hk, rfl⟩

end Sys2Proof.Proofs
end

section
/-! PROOFS. The sample memory (spec/20_memory.md R41, R43, R48, R51): the bytes of a cell, who writes it, and where the
host may store. -/

namespace Sys2Proof.Proofs

open Sys2Proof.Machine

/-! The bytes of a cell (R43). -/

/-- Putting `y` below `x` weighs `x` by the width of `y`. -/
theorem toNat_append_eq_add {m n : Nat} (x : BitVec m) (y : BitVec n) :
    (x ++ y).toNat = y.toNat + 2 ^ n * x.toNat := by
  rw [BitVec.toNat_append, Nat.shiftLeft_eq, mul_comm x.toNat, ← Nat.two_pow_add_eq_or_of_lt y.isLt, add_comm]

theorem readCell_toNat (m : Memory) (a : Nat) :
    (readCell m a).toNat =
      (readByte m (4 * a)).toNat + 2 ^ 8 * (readByte m (4 * a + 1)).toNat +
        2 ^ 16 * (readByte m (4 * a + 2)).toNat + 2 ^ 24 * (readByte m (4 * a + 3)).toNat := by
  unfold readCell
  rw [toNat_append_eq_add, toNat_append_eq_add, toNat_append_eq_add]
  omega

theorem readByte_writeCell_toNat {m : Memory} (hm : m.wf) (a : Nat) (v : Word) {i : Nat} (hi : i < 4) :
    (readByte (writeCell m a v) (4 * a + i)).toNat = v.toNat / 2 ^ (8 * i) % 2 ^ 8 := by
  have hcell : (4 * a + i) / 4 = a := by omega
  have hbyte : (4 * a + i) % 4 = i := by omega
  rw [readByte_writeCell hm, if_pos hcell, hbyte, BitVec.extractLsb'_toNat, Nat.shiftRight_eq_div_pow]

/-- Settles O57: the read is the weighted sum of its bytes, and the write puts the byte `v / 2 ^ (8 * i)` at place `i`. -/
theorem cellsAreLittleEndian : Obligations.CellsAreLittleEndian := by
  intro m a v hm
  exact ⟨readCell_toNat m a, fun i hi => readByte_writeCell_toNat hm a v hi⟩

/-! Who writes the memory (R41). -/

theorem takeResponse_keeps_mem {s t : State} (h : takeResponse s = .next t) : t.mem = s.mem := by
  obtain ⟨w, rest, -, rfl⟩ := takeResponse_eq_next h
  rfl

/-- Of the commands only PROCESS writes the memory. -/
theorem exec_keeps_mem {i : Instr} {s t : State} (h : exec i s = .next t)
    (hi : ∀ x y z o n, i ≠ .process x y z o n) : t.mem = s.mem := by
  rcases exec_cases h with ⟨seed, -, rfl⟩ | ⟨x, y, z, o, n, rfl, -⟩
  · exact pushRsp_mem ..
  · exact absurd rfl (hi x y z o n)

/-- A command that reset cuts short writes no more of the memory than its kind does (R240). -/
theorem abandon_keeps_mem {i : Instr} (s : State) (hi : ∀ x y z o n, i ≠ .process x y z o n) :
    (abandon i s).mem = s.mem := by
  obtain ⟨-, -, -, hkeep⟩ := abandon_spec i s
  exact hkeep hi

/-- Settles O54, by the cases of a step: in each case but a store and a PROCESS the memory is kept. -/
theorem onlyProcessAndTheHostChangeTheMemory : Obligations.OnlyProcessAndTheHostChangeTheMemory := by
  intro s t h hmem
  obtain ⟨event, rest, hhost, hcase⟩ := step_cases h
  rcases hcase with ⟨-, ht⟩ | ⟨cell, value, rfl, -⟩ | ⟨-, rfl⟩ | ⟨-, -, w, hw⟩
  · exact absurd (takeResponse_keeps_mem ht) hmem
  · exact .inl ⟨cell, value, rest, hhost⟩
  · exact absurd (doReset_mem _) hmem
  · rcases hw with ⟨i, more, hd, hrun⟩ | ⟨-, ⟨-, rfl⟩ | ⟨-, rfl⟩⟩ | ⟨hdr, -, ⟨-, rfl⟩ | ⟨-, rfl⟩⟩
    · by_cases hi : ∀ x y z o n, i ≠ .process x y z o n
      · rcases hrun with ⟨-, he⟩ | ⟨-, rfl⟩
        · exact absurd (exec_keeps_mem he hi) hmem
        · exact absurd (abandon_keeps_mem _ hi) hmem
      · push Not at hi
        obtain ⟨x, y, z, o, n, rfl⟩ := hi
        refine .inr ⟨w, rest, more, x, y, z, o, n, ?_, hd⟩
        rcases hrun with ⟨rfl, -⟩ | ⟨rfl, -⟩
        · exact .inl hhost
        · exact .inr hhost
    · exact absurd rfl hmem
    · exact absurd (doReset_mem _) hmem
    · exact absurd (raiseFault_mem ..) hmem
    · exact absurd (doReset_mem _) hmem

/-! The host's stores (R51). -/

theorem cellRange_holds_iff {r : CellRange} {cell : Nat} : r.holds cell = true ↔ r.first ≤ cell ∧ cell < r.past := by
  simp [CellRange.holds]

/-- The ranges of a PROCESS hold exactly the cells of its accessed elements (R48). -/
theorem accessedRanges_hold_iff (x y z o : Descriptor) (n : Word) (cell : Nat) :
    (∃ r ∈ accessedRanges x y z o n, r.first ≤ cell ∧ cell < r.past) ↔
      ∃ d ∈ [x, y, z, o], ∃ k < n.toNat, cell = elementCell d k := by
  unfold accessedRanges elementCell
  constructor
  · rintro ⟨r, hr, hfirst, hpast⟩
    obtain ⟨d, hd, rfl⟩ := List.mem_map.1 hr
    dsimp only at hfirst hpast
    exact ⟨d, hd, cell - d.base.toNat, by omega, by omega⟩
  · rintro ⟨d, hd, k, hk, rfl⟩
    exact ⟨_, List.mem_map.2 ⟨d, hd, rfl⟩, Nat.le_add_right .., Nat.add_lt_add_left hk _⟩

theorem step_store {s : State} {cell value : Word} {rest : List HostEvent} (h : s.host = .store cell value :: rest) :
    step s = hostStore cell.toNat value { s with host := rest } := by
  unfold step nextAction
  rw [h]

/-- A store to a cell of an open window is refused. -/
theorem hostStore_of_held {s : State} {a : Nat} {v : Word} {window : List CellRange} {r : CellRange}
    (hwindow : window ∈ s.windows) (hr : r ∈ window) (hheld : r.holds a = true) :
    hostStore a v s = .refused (.storeRaces a) :=
  if_pos (List.any_eq_true.2 ⟨window, hwindow, List.any_eq_true.2 ⟨r, hr, hheld⟩⟩)

/-- A store to any other backed cell replaces it. -/
theorem hostStore_of_not_held {s : State} {a : Nat} (v : Word)
    (hfree : ∀ window ∈ s.windows, ∀ r ∈ window, ¬ r.holds a = true) (ha : a < 2 ^ s.cfg.aw)
    (hb : cellBacked s.cfg a = true) : hostStore a v s = .next { s with mem := writeCell s.mem a v } := by
  unfold hostStore
  rw [if_neg]
  · exact memWrite_eq_next.2 ⟨ha, hb, rfl⟩
  · intro hany
    obtain ⟨window, hwindow, hany⟩ := List.any_eq_true.1 hany
    obtain ⟨r, hr, hheld⟩ := List.any_eq_true.1 hany
    exact hfree window hwindow r hr hheld

/-- Settles O56: a range that lies to one side of a cell does not hold it, and the store goes by what the windows hold. -/
theorem hostStoresOnlyOutsideTheWindows : Obligations.HostStoresOnlyOutsideTheWindows := by
  refine ⟨accessedRanges_hold_iff, fun s cell value rest hhost => ?_⟩
  rw [step_store hhost]
  constructor
  · rintro ⟨window, hwindow, r, hr, hin⟩
    exact hostStore_of_held hwindow hr (cellRange_holds_iff.2 hin)
  · intro hout hspace hb
    refine hostStore_of_not_held value (fun window hwindow r hr hheld => ?_) hspace hb
    obtain ⟨hfirst, hpast⟩ := cellRange_holds_iff.1 hheld
    have := hout window hwindow r hr
    omega

end Sys2Proof.Proofs
end

section
/-! PROOFS. The decoder and the encoder (spec/30_encoding.md R63 to R68): the packets of the encoder divide all lists of
words into three kinds, and on each kind the decoder has its own answer. -/

namespace Sys2Proof.Proofs

open Sys2Proof.Machine

/-! What the decoder answers on each kind of list. -/

/-- A packet decodes to its command, whatever words follow it. -/
theorem decode_encode_append (i : Instr) (rest : List Word) : decode (encode i ++ rest) = .ok (i, rest) := by
  cases i with
  | construct => exact Laws.RoundTrip.construct rest
  | constructS seed => exact Laws.RoundTrip.constructS seed rest
  | process x y z o n => exact Laws.RoundTrip.process x y z o n rest

theorem decode_take_encode (i : Instr) {k : Nat} (hk : k < (encode i).length) :
    decode ((encode i).take k) = .error .incomplete := by
  cases i with
  | construct => exact Laws.Prefix.construct k hk
  | constructS seed => exact Laws.Prefix.constructS seed k hk
  | process x y z o n => exact Laws.Prefix.process x y z o n k hk

/-- A proper beginning of a packet waits for the rest (R73). -/
theorem decode_of_append_eq_encode {ws more : List Word} {i : Instr} (hmore : more ≠ [])
    (h : ws ++ more = encode i) : decode ws = .error .incomplete := by
  have hlen : ws.length < (encode i).length := by
    have := List.length_pos_iff.2 hmore
    rw [← h, List.length_append]
    omega
  have htake : (encode i).take ws.length = ws := by rw [← h, List.take_left]
  simpa [htake] using decode_take_encode i hlen

/-- A first word that is no header of R65 is illegal, whatever follows it (R66). -/
theorem decode_cons_of_ne {hdr : Word} (hC : hdr ≠ headerConstruct) (hS : hdr ≠ headerConstructS)
    (hP : hdr ≠ headerProcess) (ops : List Word) : decode (hdr :: ops) = .error (.illegalHeader hdr) := by
  simp [decode, hC, hS, hP]

/-! The three kinds. -/

/-- Nine operand words, whatever their values, make a PROCESS (R63, R64). -/
theorem exists_encode_eq_headerProcess_cons {ops : List Word} (hlen : ops.length = 9) :
    ∃ i, encode i = headerProcess :: ops :=
  match ops, hlen with
  | [xbase, xlen, ybase, ylen, zbase, zlen, obase, olen, n], _ =>
    ⟨.process ⟨xbase, xlen⟩ ⟨ybase, ylen⟩ ⟨zbase, zlen⟩ ⟨obase, olen⟩ n, rfl⟩

/-- The words after a header of PROCESS are cut at nine, or filled up to nine with any words. -/
theorem headerProcess_cons_cases (ops : List Word) :
    (∃ i rest, headerProcess :: ops = encode i ++ rest) ∨
    (∃ i more, more ≠ [] ∧ (headerProcess :: ops) ++ more = encode i) := by
  rcases Nat.lt_or_ge ops.length 9 with hshort | hlong
  · have hlen : (ops ++ List.replicate (9 - ops.length) 0#32).length = 9 := by simp; omega
    obtain ⟨i, hi⟩ := exists_encode_eq_headerProcess_cons hlen
    exact .inr ⟨i, _, by simp; omega, hi.symm⟩
  · obtain ⟨i, hi⟩ := exists_encode_eq_headerProcess_cons (List.length_take_of_le hlong)
    exact .inl ⟨i, ops.drop 9, by rw [hi, List.cons_append, List.take_append_drop]⟩

/-- Every list of words begins with a packet, is a proper beginning of one, or has an illegal first word. -/
theorem words_cases (ws : List Word) :
    (∃ i rest, ws = encode i ++ rest) ∨
    (∃ i more, more ≠ [] ∧ ws ++ more = encode i) ∨
    (∃ hdr ops, ws = hdr :: ops ∧ hdr ≠ headerConstruct ∧ hdr ≠ headerConstructS ∧ hdr ≠ headerProcess) := by
  cases ws with
  | nil => exact .inr (.inl ⟨.construct, encode .construct, by simp [encode], rfl⟩)
  | cons hdr ops =>
    by_cases hC : hdr = headerConstruct
    · exact .inl ⟨.construct, ops, by rw [hC]; rfl⟩
    by_cases hS : hdr = headerConstructS
    · subst hS
      cases ops with
      | nil => exact .inr (.inl ⟨.constructS 0#32, [0#32], by simp, rfl⟩)
      | cons seed rest => exact .inl ⟨.constructS seed, rest, rfl⟩
    by_cases hP : hdr = headerProcess
    · subst hP
      exact (headerProcess_cons_cases ops).imp_right .inl
    · exact .inr (.inr ⟨hdr, ops, rfl, hC, hS, hP⟩)

/-! The decoder's three answers. -/

theorem decode_eq_ok_iff {ws rest : List Word} {i : Instr} :
    decode ws = .ok (i, rest) ↔ ws = encode i ++ rest := by
  refine ⟨fun h => ?_, fun h => by rw [h, decode_encode_append]⟩
  rcases words_cases ws with ⟨j, more, rfl⟩ | ⟨j, more, hmore, hj⟩ | ⟨hdr, ops, rfl, hC, hS, hP⟩
  · rw [decode_encode_append] at h; cases h; rfl
  · rw [decode_of_append_eq_encode hmore hj] at h; cases h
  · rw [decode_cons_of_ne hC hS hP] at h; cases h

theorem decode_eq_incomplete_iff {ws : List Word} :
    decode ws = .error .incomplete ↔ ∃ i more, more ≠ [] ∧ ws ++ more = encode i := by
  refine ⟨fun h => ?_, fun ⟨_, _, hmore, hi⟩ => decode_of_append_eq_encode hmore hi⟩
  rcases words_cases ws with ⟨j, more, rfl⟩ | hbeginning | ⟨hdr, ops, rfl, hC, hS, hP⟩
  · rw [decode_encode_append] at h; cases h
  · exact hbeginning
  · rw [decode_cons_of_ne hC hS hP] at h; cases h

theorem decode_eq_illegalHeader_iff {ws : List Word} {hdr : Word} :
    decode ws = .error (.illegalHeader hdr) ↔
      ws.head? = some hdr ∧ hdr ≠ headerConstruct ∧ hdr ≠ headerConstructS ∧ hdr ≠ headerProcess := by
  constructor
  · intro h
    rcases words_cases ws with ⟨j, more, rfl⟩ | ⟨j, more, hmore, hj⟩ | ⟨w, ops, rfl, hC, hS, hP⟩
    · rw [decode_encode_append] at h; cases h
    · rw [decode_of_append_eq_encode hmore hj] at h; cases h
    · rw [decode_cons_of_ne hC hS hP] at h; cases h; exact ⟨rfl, hC, hS, hP⟩
  · rintro ⟨hhead, hC, hS, hP⟩
    obtain ⟨ops, rfl⟩ := List.head?_eq_some_iff.1 hhead
    exact decode_cons_of_ne hC hS hP ops

/-- Settles O2, by the three kinds of lists of words: the decoder's answers exclude each other as the kinds do. -/
theorem decoderIsExactlyTheEncoding : Obligations.DecoderIsExactlyTheEncoding := fun _ =>
  ⟨fun _ _ => decode_eq_ok_iff, decode_eq_incomplete_iff, fun _ => decode_eq_illegalHeader_iff⟩

/-! Words written out, and lengths. -/

/-- Settles O1: the words are the packets of the three commands, with nothing after them. -/
theorem specWordsDecodeToTheirCommands : Obligations.SpecWordsDecodeToTheirCommands :=
  ⟨decode_encode_append .construct [], decode_encode_append (.constructS 7#32) [],
    decode_encode_append
      (.process ⟨0x100#32, 0x40#32⟩ ⟨0x140#32, 0x41#32⟩ ⟨0x180#32, 0x42#32⟩ ⟨0x1C0#32, 0x43#32⟩ 0x44#32) []⟩

theorem exists_encode_eq_cons (i : Instr) : ∃ hdr ops, encode i = hdr :: ops ∧ packetLength hdr = ops.length + 1 := by
  cases i with
  | construct => exact Laws.Length.construct
  | constructS seed => exact Laws.Length.constructS seed
  | process x y z o n => exact Laws.Length.process x y z o n

/-- A header that asks for no operands is a packet by itself, an illegal one too (R66). -/
theorem packetLength_of_ne {hdr : Word} (hS : hdr ≠ headerConstructS) (hP : hdr ≠ headerProcess) :
    packetLength hdr = 1 := by
  rw [packetLength, if_neg hS, if_neg hP]

theorem encode_length (i : Instr) : (encode i).length = packetLength ((encode i).headD 0#32) := by
  obtain ⟨hdr, ops, he, hlen⟩ := exists_encode_eq_cons i
  rw [he, List.headD_cons, hlen, List.length_cons]

/-- Settles O3. -/
theorem packetLengthFromHeaderAlone : Obligations.PacketLengthFromHeaderAlone :=
  ⟨rfl, rfl, rfl, fun _ => packetLength_of_ne, encode_length⟩

/-- The words of a program are those of the commands it is parsed to (R71). -/
theorem assemble_of_parseProgram {text : List Char} {is : List Instr} (h : parseProgram text = some is) :
    assemble text = some (encodeStream is) := by
  rw [assemble, h, Option.map_some]

/-- Settles O4, by the commands that the texts are parsed to. -/
theorem assemblerWritesThePacketsOfTheRule : Obligations.AssemblerWritesThePacketsOfTheRule := by
  have hconstruct : parseProgram "construct".toList = some [.construct] := by decide +kernel
  have hconstructS : parseProgram "construct.s 7".toList = some [.constructS 7#32] := by decide +kernel
  have hprocess : parseProgram "process 0x100, 64, 0x140, 64, 0x180, 64, 0x1C0, 64, 64".toList =
      some [.process ⟨0x100#32, 64#32⟩ ⟨0x140#32, 64#32⟩ ⟨0x180#32, 64#32⟩ ⟨0x1C0#32, 64#32⟩ 64#32] := by
    decide +kernel
  have hpast : parseProgram "construct.s 4294967296".toList = none := by decide +kernel
  exact ⟨assemble_of_parseProgram hconstruct, assemble_of_parseProgram hconstructS,
    assemble_of_parseProgram hprocess, by rw [assemble, hpast, Option.map_none]⟩

end Sys2Proof.Proofs
end

section
/-! PROOFS. The acceptance of a command word (spec/30_encoding.md R73): what the step is when the core accepts the word that
the host offers, by what the decoder says of the packet with that word. -/

namespace Sys2Proof.Proofs

open Sys2Proof.Machine

section

variable {s : State} {w : Word} {rest : List HostEvent}

/-- A FAULTED core accepts no word (R209). -/
theorem step_word_of_faulted (hhost : s.host = .word w :: rest) (hf : s.faulted = true) :
    step s = .refused .coreFaulted := by
  simp [step, nextAction, hhost, acceptWord, hf]

/-- While a command waits to end, no word is accepted (R28). -/
theorem step_word_of_held (hhost : s.host = .word w :: rest) (hf : s.faulted = false)
    (hh : s.rspHold.isSome = true) : step s = .refused .commandRunning := by
  simp [step, nextAction, hhost, acceptWord, hf, hh]

/-- A word that completes a packet runs its command, with the packet taken out. -/
theorem step_word_of_decode_ok {i : Instr} {more : List Word} (hhost : s.host = .word w :: rest)
    (hf : s.faulted = false) (hh : s.rspHold = none) (hd : decode (s.cmdbuf ++ [w]) = .ok (i, more)) :
    step s = exec i { s with host := rest, cmdbuf := [] } := by
  simp [step, nextAction, hhost, acceptWord, hf, hh, hd]

/-- A word that leaves the packet incomplete is kept. -/
theorem step_word_of_decode_incomplete (hhost : s.host = .word w :: rest) (hf : s.faulted = false)
    (hh : s.rspHold = none) (hd : decode (s.cmdbuf ++ [w]) = .error .incomplete) :
    step s = .next { s with host := rest, cmdbuf := s.cmdbuf ++ [w] } := by
  simp [step, nextAction, hhost, acceptWord, hf, hh, hd]

end

/-- Settles O5. -/
theorem stepRunsTheDecodedCommand : Obligations.StepRunsTheDecodedCommand :=
  fun _ _ _ _ hhost hf hh _ hd => step_word_of_decode_ok hhost hf hh hd

/-- Settles O6. -/
theorem incompletePacketWaits : Obligations.IncompletePacketWaits :=
  fun _ _ _ hhost hf hh hd => step_word_of_decode_incomplete hhost hf hh hd

end Sys2Proof.Proofs
end

section
/-! PROOFS. The cause and the response of a command (spec/30_encoding.md R69, R70, spec/60_exceptions.md R201, R202): a
command that runs never has the cause IllegalCommand, and its response echoes its header and its cause. -/

namespace Sys2Proof.Proofs

open Sys2Proof.Machine

/-- The checks of PROCESS raise no IllegalCommand: that cause is the decoder's alone (R202). -/
theorem checkProcess_ne_illegalCommand {cfg : Config} {x y z o : Descriptor} {n info : Word} {c : FaultCause}
    (h : checkProcess cfg x y z o n = some (c, info)) : causeCode c ≠ 1#4 := by
  obtain ⟨b, -, ⟨rfl, -⟩ | ⟨rfl, -⟩ | ⟨rfl, -⟩⟩ := checkProcess_eq_some h <;> decide

theorem exec_cause_ne_illegalCommand {i : Instr} {s t : State} (hc : s.cause = 0#4) (h : exec i s = .next t) :
    t.cause ≠ 1#4 := by
  rcases exec_cases h with ⟨seed, -, rfl⟩ | ⟨x, y, z, o, n, -, ⟨c, info, hcheck, rfl⟩ | ⟨-, u, hu, rfl⟩⟩
  case inl => simp [hc]
  case inr.inl => simpa using checkProcess_ne_illegalCommand hcheck
  case inr.inr =>
    have hcause : u.cause = s.cause := by rw [processSamples_eq_next hu]
    simp [hcause, hc]

/-- The first word of a packet that lacks words is a legal header (R27), so no next word makes the packet illegal. -/
theorem decode_partialPacket_append_ne {ws : List Word} (hne : ws ≠ []) (hws : partialPacket ws) (w hdr : Word) :
    decode (ws ++ [w]) ≠ .error (.illegalHeader hdr) := by
  intro h
  obtain ⟨hhead, -, hS, hP⟩ := decode_eq_illegalHeader_iff.1 h
  rw [List.head?_append_of_ne_nil ws hne] at hhead
  rcases hws with rfl | rfl | ⟨hfirst, -⟩
  · exact hne rfl
  · exact hS (Option.some.inj hhead).symm
  · exact hP (Option.some.inj (hhead.symm.trans hfirst))

/-- Settles O8: the word completes a command, which has a cause of its own if any, or it is kept. -/
theorem operandWordsAreNeverHeaders : Obligations.OperandWordsAreNeverHeaders := by
  intro s t w rest hhost hf hc hne hpart h
  have hh : s.rspHold = none := by
    by_contra hheld
    rw [step_word_of_held hhost hf (Option.isSome_iff_ne_none.2 hheld)] at h
    cases h
  match hd : decode (s.cmdbuf ++ [w]) with
  | .ok (i, more) =>
    rw [step_word_of_decode_ok hhost hf hh hd] at h
    exact exec_cause_ne_illegalCommand (s := { s with host := rest, cmdbuf := [] }) hc h
  | .error .incomplete =>
    rw [step_word_of_decode_incomplete hhost hf hh hd] at h
    cases h
    simp [hc]
  | .error (.illegalHeader hdr) => exact absurd hd (decode_partialPacket_append_ne hne hpart w hdr)

/-! The low byte of a command's header (R62). -/

theorem headerOp_encode_construct : headerOp ((encode .construct).headD 0#32) = 0x01#8 := rfl

theorem headerOp_encode_constructS (seed : Word) : headerOp ((encode (.constructS seed)).headD 0#32) = 0x01#8 := by
  rw [encode, List.headD_cons]; decide

theorem headerOp_encode_process (x y z o : Descriptor) (n : Word) :
    headerOp ((encode (.process x y z o n)).headD 0#32) = 0x02#8 := rfl

/-- The response of a command: the low byte of its header and its cause, 0 if it did not fault (R69, R70). -/
theorem exec_responded_headerOp_cause {i : Instr} {s t : State} (hc : s.cause = 0#4) (h : exec i s = .next t) :
    Responded s t (responseWord (headerOp ((encode i).headD 0#32)) t.cause) := by
  rcases exec_cases h with ⟨seed, hi, rfl⟩ | ⟨x, y, z, o, n, rfl, ⟨c, info, -, rfl⟩ | ⟨-, u, hu, rfl⟩⟩
  case inl =>
    have hop : headerOp ((encode i).headD 0#32) = 0x01#8 := by
      rcases hi with ⟨rfl, -⟩ | rfl
      · exact headerOp_encode_construct
      · exact headerOp_encode_constructS seed
    have hcause := (pushRsp_cause (responseWord 0x01#8 0#4) [] { s with perm := buildPermutation seed }).trans hc
    rw [hop, hcause]
    exact responded_pushRsp_set_perm ..
  case inr.inl =>
    rw [headerOp_encode_process, raiseFault_cause]
    exact responded_raiseFault ..
  case inr.inr =>
    have hframe := processSamples_eq_next hu
    have hcause : u.cause = 0#4 := by rw [hframe]; exact hc
    rw [headerOp_encode_process, pushRsp_cause, hcause]
    exact responded_pushRsp (by rw [hframe]) (by rw [hframe]) (by rw [hframe]) _ _

/-- Settles O47, by the response word as a number. -/
theorem everyCommandPostsOneResponse : Obligations.EveryCommandPostsOneResponse := by
  intro i s t _ hc h
  rw [← responseWord_eq]
  exact exec_responded_headerOp_cause hc h

end Sys2Proof.Proofs
end

section
/-! PROOFS. A command does not look at what the host will do next (spec/30_encoding.md R60, R73): with another list of
events waiting, it does the same and leaves that list. -/

namespace Sys2Proof.Proofs

open Sys2Proof.Machine

/-- An access answers the value it is given, or stops for a reason that is not in the value. -/
theorem accessCell_andThen {α β : Type} (cfg : Config) (a : Nat) (v : α) (f : α → β) :
    (andThen (accessCell cfg a v) fun u => .next (f u)) = accessCell cfg a (f v) := by
  unfold accessCell
  split
  · rfl
  · split <;> rfl

theorem memRead_set_host (s : State) (a : Nat) (host : List HostEvent) :
    memRead { s with host := host } a = memRead s a := rfl

theorem memWrite_set_host (s : State) (a : Nat) (v : Word) (host : List HostEvent) :
    memWrite { s with host := host } a v = andThen (memWrite s a v) fun t => .next { t with host := host } := by
  rw [memWrite, memWrite, accessCell_andThen]

theorem pushRsp_set_host (w : Word) (window : List CellRange) (s : State) (host : List HostEvent) :
    pushRsp w window { s with host := host } = { pushRsp w window s with host := host } := by
  unfold pushRsp
  split <;> rfl

theorem raiseFault_set_host (c : FaultCause) (info : Word) (op : Byte) (s : State) (host : List HostEvent) :
    raiseFault c info op { s with host := host } = { raiseFault c info op s with host := host } :=
  pushRsp_set_host _ _ { s with faulted := true, cause := causeCode c, finfo := info, cmdbuf := [] } host

theorem processSample_set_host (x y z o : Descriptor) (k : Nat) (s : State) (host : List HostEvent) :
    processSample x y z o k { s with host := host } =
      andThen (processSample x y z o k s) fun t => .next { t with host := host } := by
  simp only [processSample, andThen_assoc, memRead_set_host, memWrite_set_host]

theorem processSamples_set_host (x y z o : Descriptor) (ks : List Nat) (s : State) (host : List HostEvent) :
    processSamples x y z o ks { s with host := host } =
      andThen (processSamples x y z o ks s) fun t => .next { t with host := host } := by
  induction ks generalizing s with
  | nil => rfl
  | cons k ks ih => simp only [processSamples, processSample_set_host, andThen_assoc, andThen_next, ih]

theorem execProcess_set_host (x y z o : Descriptor) (n : Word) (s : State) (host : List HostEvent) :
    execProcess x y z o n { s with host := host } =
      andThen (execProcess x y z o n s) fun t => .next { t with host := host } := by
  unfold execProcess
  dsimp only
  split
  · rw [raiseFault_set_host, andThen_next]
  · simp only [processRun, processSamples_set_host, andThen_assoc, andThen_next, ← pushRsp_set_host]

/-- A construction on another list of events. The table is a variable: on a built one the kernel would run the swaps to
compare states. -/
theorem pushRsp_set_perm_host (w : Word) (window : List CellRange) (s : State) (p : PermTable)
    (host : List HostEvent) :
    (.next (pushRsp w window { s with host := host, perm := p }) : Access State) =
      andThen (.next (pushRsp w window { s with perm := p })) fun t => .next { t with host := host } :=
  congrArg _ (pushRsp_set_host w window { s with perm := p } host)

theorem exec_set_host (i : Instr) (s : State) (host : List HostEvent) :
    exec i { s with host := host } = andThen (exec i s) fun t => .next { t with host := host } := by
  cases i with
  | construct => exact pushRsp_set_perm_host _ _ s _ host
  | constructS seed => exact pushRsp_set_perm_host _ _ s _ host
  | process x y z o n => exact execProcess_set_host x y z o n s host

/-- A command leaves the command buffer as it was, empty at a packet boundary (R27). -/
theorem exec_cmdbuf {i : Instr} {s t : State} (hb : s.cmdbuf = []) (h : exec i s = .next t) : t.cmdbuf = [] := by
  rcases exec_cases h with ⟨seed, -, rfl⟩ | ⟨x, y, z, o, n, -, ⟨c, info, -, rfl⟩ | ⟨-, u, hu, rfl⟩⟩
  case inl => exact (pushRsp_cmdbuf ..).trans hb
  case inr.inl => exact raiseFault_cmdbuf ..
  case inr.inr =>
    have hframe : u.cmdbuf = s.cmdbuf := by rw [processSamples_eq_next hu]
    exact (pushRsp_cmdbuf ..).trans (hframe.trans hb)

end Sys2Proof.Proofs
end

section
/-! PROOFS. A command stream (spec/30_encoding.md R60, R73): the words of a packet but the last are kept in the command
buffer, the last one runs the command, and so the words of a stream run its commands. -/

namespace Sys2Proof.Proofs

open Sys2Proof.Machine

/-- The second part of a sequence matters only on what the first part can answer. -/
theorem andThen_congr {α β : Type} {a : Access α} {f g : α → Access β} (h : ∀ v, a = .next v → f v = g v) :
    andThen a f = andThen a g := by
  cases a with
  | next v => exact h v rfl
  | fault r => rfl
  | refused r => rfl

/-! A machine's run goes by its first step (Host/Core.lean). -/

section

variable {M : Host.Core} {s : M.State}

theorem run_succ_of_next {t : M.State} (h : M.step s = .next t) (k : Nat) : M.run (k + 1) s = M.run k t := by
  rw [Host.Core.run, h]

theorem run_succ_of_fault {r : M.Fault} (h : M.step s = .fault r) (k : Nat) : M.run (k + 1) s = .fault r := by
  rw [Host.Core.run, h]

theorem run_succ_of_refused {r : M.Refusal} (h : M.step s = .refused r) (k : Nat) :
    M.run (k + 1) s = .refused r := by
  rw [Host.Core.run, h]

end

/-- The run of the machine, with the state and the reasons under their own names. -/
def runSteps (k : Nat) (s : State) : Access State := Host.Core.run Sys2Proof.core k s

theorem runSteps_succ (k : Nat) (s : State) : runSteps (k + 1) s = andThen (step s) (runSteps k) := by
  cases h : step s with
  | next t => exact run_succ_of_next (M := Sys2Proof.core) h k
  | fault r => exact run_succ_of_fault (M := Sys2Proof.core) h k
  | refused r => exact run_succ_of_refused (M := Sys2Proof.core) h k

/-- Words that begin a packet and leave some of it out are only kept. -/
theorem runSteps_beginning (k : Nat) (rest : List HostEvent) {i : Instr} {more : List Word} (hmore : more ≠ [])
    (ws : List Word) {s : State} (hf : s.faulted = false) (hh : s.rspHold = none)
    (hi : s.cmdbuf ++ ws ++ more = encode i) :
    runSteps (ws.length + k) { s with host := ws.map HostEvent.word ++ rest } =
      runSteps k { s with host := rest, cmdbuf := s.cmdbuf ++ ws } := by
  induction ws generalizing s with
  | nil => simp
  | cons w ws ih =>
    have hd : decode (s.cmdbuf ++ [w]) = .error .incomplete :=
      decode_of_append_eq_encode (more := ws ++ more) (by simp [hmore]) (by simpa using hi)
    have hstep : step { s with host := (w :: ws).map HostEvent.word ++ rest } =
        .next { s with host := ws.map HostEvent.word ++ rest, cmdbuf := s.cmdbuf ++ [w] } :=
      step_word_of_decode_incomplete rfl hf hh hd
    have hkeep := ih (s := { s with cmdbuf := s.cmdbuf ++ [w] }) hf hh (by simpa using hi)
    rw [List.length_cons, Nat.add_right_comm, runSteps_succ, hstep, andThen_next, hkeep]
    simp

/-- The words of a packet, offered at a packet boundary to a core that accepts them, run its command. -/
theorem runSteps_packet (k : Nat) (rest : List HostEvent) (i : Instr) {s : State} (hb : s.cmdbuf = [])
    (hf : s.faulted = false) (hh : s.rspHold = none) :
    runSteps ((encode i).length + k) { s with host := (encode i).map HostEvent.word ++ rest } =
      andThen (exec i { s with host := rest }) (runSteps k) := by
  obtain ⟨ws, last, he⟩ : ∃ ws last, encode i = ws ++ [last] := by
    obtain ⟨hdr, ops, he, -⟩ := exists_encode_eq_cons i
    exact ⟨_, _, (List.dropLast_append_getLast (by simp [he])).symm⟩
  have hkeep := runSteps_beginning (1 + k) (.word last :: rest) (List.cons_ne_nil last []) ws hf hh
    (by rw [hb, he, List.nil_append])
  have hd : decode (s.cmdbuf ++ ws ++ [last]) = .ok (i, []) := by
    rw [hb, List.nil_append, ← he]
    exact decode_eq_ok_iff.2 (List.append_nil _).symm
  have hrun : step { s with host := .word last :: rest, cmdbuf := s.cmdbuf ++ ws } =
      exec i { s with host := rest, cmdbuf := [] } := step_word_of_decode_ok rfl hf hh hd
  rw [he, List.length_append, List.length_singleton, List.map_append, List.append_assoc, Nat.add_assoc]
  refine hkeep.trans ?_
  rw [Nat.add_comm 1 k, runSteps_succ, hrun, ← hb]

/-- Where the core accepts no word, the first word of a packet stops the run. -/
theorem runSteps_packet_of_refused (k : Nat) (rest : List HostEvent) (i : Instr) {s : State} {r : Refusal}
    (hstop : ∀ w events, step { s with host := .word w :: events } = .refused r) :
    runSteps ((encode i).length + k) { s with host := (encode i).map HostEvent.word ++ rest } = .refused r := by
  obtain ⟨hdr, ops, he, -⟩ := exists_encode_eq_cons i
  rw [he, List.length_cons, Nat.add_right_comm, runSteps_succ, List.map_cons, List.cons_append, hstop, andThen_refused]

/-- The words of a stream run its commands, by the stream: a command's packet first, and the others from where it
ends. -/
theorem runSteps_encodeStream (is : List Instr) (s : State) (rest : List HostEvent) (hb : s.cmdbuf = []) :
    runSteps (encodeStream is).length { s with host := (encodeStream is).map HostEvent.word ++ rest } =
      runCommands is { s with host := rest } := by
  induction is generalizing s with
  | nil => rfl
  | cons i is ih =>
    rw [encodeStream, List.flatMap_cons, List.length_append, List.map_append, List.append_assoc, ← encodeStream,
      runCommands]
    by_cases hf : s.faulted = true
    · rw [if_pos hf]
      exact runSteps_packet_of_refused _ _ i fun _ _ => step_word_of_faulted rfl hf
    by_cases hh : s.rspHold.isSome = true
    · rw [if_neg hf, if_pos hh]
      exact runSteps_packet_of_refused _ _ i fun _ _ => step_word_of_held rfl (by simpa using hf) hh
    rw [if_neg hf, if_neg hh, runSteps_packet _ _ i hb (by simpa using hf) (by simpa using hh),
      exec_set_host i { s with host := rest }, andThen_assoc]
    refine andThen_congr fun t ht => ?_
    obtain ⟨hhost, -⟩ := exec_keeps_host_cfg ht
    have hrest : { t with host := rest } = t := by rw [← show t.host = rest from hhost]
    rw [andThen_next, ih t (exec_cmdbuf (s := { s with host := rest }) hb ht), hrest]

/-- Settles O9, on the machine's run as it stands. -/
theorem commandStreamRunsItsCommandsInOrder : Obligations.CommandStreamRunsItsCommandsInOrder :=
  runSteps_encodeStream

end Sys2Proof.Proofs
end

section
/-! PROOFS. BUILD_PERMUTATION (spec/40_permutation_generator.md R92 to R95): the tables that its loop goes through, what
one exchange does to their entries, and the entries that the first two iterations fix. -/

namespace Sys2Proof.Proofs

open Sys2Proof.Machine

/-- Settles O12. -/
theorem builtTableIsAPermutation : Obligations.BuiltTableIsAPermutation := buildPermutation_isPermutation

/-- The table `q` is the table `p` with entries `i` and `j` exchanged (R93). -/
def Exchanged (p q : PermTable) (i j : Nat) : Prop :=
  ∀ k, q[k]? = if k = i then p[j]? else if k = j then p[i]? else p[k]?

theorem exchanged_swap (p : PermTable) {i j : Nat} (hi : i < 256) (hj : j < 256) :
    Exchanged p (p.swap i j hi hj) i j := by
  intro k
  rw [Vector.getElem?_swap, Vector.getElem?_eq_getElem hi, Vector.getElem?_eq_getElem hj]
  by_cases hki : k = i
  · by_cases hkj : k = j
    · subst hki hkj; simp
    · simp [hki, hki ▸ Ne.symm hkj]
  · simp [hki, Ne.symm hki, eq_comm]

/-! The tables of the loop (R92). -/

theorem swapIndex_lt (r : Word) {i : Nat} (hi : i < 256) : swapIndex r i < 256 := (swapIndex_le r i).trans_lt hi

/-- One iteration: a draw, the exchange it selects, and the loop from the index below. -/
theorem shuffleFrom_succ (i : Nat) (hi : i + 1 < 256) (lcg : Word) (p : PermTable) :
    shuffleFrom (i + 1) hi lcg p =
      shuffleFrom i (Nat.lt_of_succ_lt hi) (lcgNext lcg)
        (p.swap (i + 1) (swapIndex (lcgNext lcg) (i + 1)) hi (swapIndex_lt _ hi)) := rfl

/-- The loop goes through a table before each of its indices, each one the exchange of the draw of the index above. -/
theorem exists_tables_shuffleFrom (i : Nat) (hi : i < 256) (lcg : Word) (p : PermTable) :
    ∃ table : Nat → PermTable, table i = p ∧ table 0 = shuffleFrom i hi lcg p ∧
      ∀ k < i, Exchanged (table (k + 1)) (table k) (k + 1) (swapIndex (lcgNext^[i - k] lcg) (k + 1)) := by
  induction i generalizing lcg p with
  | zero => exact ⟨fun _ => p, rfl, rfl, nofun⟩
  | succ i ih =>
    obtain ⟨below, hfirst, hlast, hstep⟩ := ih (Nat.lt_of_succ_lt hi) (lcgNext lcg)
      (p.swap (i + 1) (swapIndex (lcgNext lcg) (i + 1)) hi (swapIndex_lt _ hi))
    have hbelow : ∀ k ≤ i, Function.update below (i + 1) p k = below k := fun k hk =>
      Function.update_of_ne (by omega) ..
    refine ⟨Function.update below (i + 1) p, Function.update_self .., ?_, fun k hk => ?_⟩
    · rw [hbelow 0 (Nat.zero_le i), hlast, shuffleFrom_succ]
    · rcases Nat.lt_succ_iff_lt_or_eq.1 hk with hlt | rfl
      · have hdraw : lcgNext^[i + 1 - k] lcg = lcgNext^[i - k] (lcgNext lcg) := by
          rw [Nat.succ_sub hlt.le, Function.iterate_succ_apply]
        rw [hbelow k hlt.le, hbelow (k + 1) hlt, hdraw]
        exact hstep k hlt
      · have hdraw : lcgNext^[k + 1 - k] lcg = lcgNext lcg := by rw [Nat.add_sub_cancel_left, Function.iterate_one]
        rw [hbelow k le_rfl, Function.update_self, hfirst, hdraw]
        exact exchanged_swap p hi _

/-! The entries that are fixed (R92): an index above the loop's own is not touched again. -/

theorem identityTable_toNat {k : Nat} (hk : k < 256) : identityTable[k].toNat = k := by
  simp [identityTable]

theorem shuffleFrom_getElem_of_lt {i k : Nat} (hik : i < k) (hk : k < 256) (lcg : Word) (p : PermTable) :
    (shuffleFrom i (hik.trans hk) lcg p)[k] = p[k] := by
  induction i generalizing lcg p with
  | zero => rfl
  | succ i ih =>
    have hj := swapIndex_le (lcgNext lcg) (i + 1)
    rw [shuffleFrom_succ, ih (Nat.lt_of_succ_lt hik), Vector.getElem_swap_of_ne (by omega) (by omega)]

/-- The entry at the loop's first index is the one that its first draw selects. -/
theorem shuffleFrom_getElem_top (i : Nat) (hi : i + 1 < 256) (lcg : Word) (p : PermTable) :
    (shuffleFrom (i + 1) hi lcg p)[i + 1] =
      p[swapIndex (lcgNext lcg) (i + 1)]'(by exact swapIndex_lt _ hi) := by
  rw [shuffleFrom_succ, shuffleFrom_getElem_of_lt (Nat.lt_add_one i) hi, Vector.getElem_swap_left]

/-- The entry below it is the one that the second draw selects, of the table that the first exchange has left. -/
theorem shuffleFrom_getElem_second (i : Nat) (hi : i + 1 + 1 < 256) (lcg : Word) (p : PermTable) :
    (shuffleFrom (i + 1 + 1) hi lcg p)[i + 1] =
      if swapIndex (lcgNext (lcgNext lcg)) (i + 1) = swapIndex (lcgNext lcg) (i + 1 + 1) then p[i + 1 + 1]
      else p[swapIndex (lcgNext (lcgNext lcg)) (i + 1)]'(by exact swapIndex_lt _ (Nat.lt_of_succ_lt hi)) := by
  have hne : swapIndex (lcgNext (lcgNext lcg)) (i + 1) ≠ i + 1 + 1 := (Nat.lt_succ_of_le (swapIndex_le _ _)).ne
  rw [shuffleFrom_succ, shuffleFrom_getElem_top, Vector.getElem_swap, if_neg hne]

theorem buildPermutation_eq_shuffleFrom (seed : Word) :
    buildPermutation seed = shuffleFrom 255 (by decide) seed identityTable := by
  unfold buildPermutation
  rfl

/-- Entry 255 is the first draw modulo 256. -/
theorem buildPermutation_255 (seed : Word) : (buildPermutation seed)[255].toNat = (lcgNext seed).toNat % 256 := by
  rw [buildPermutation_eq_shuffleFrom]
  exact (congrArg BitVec.toNat (shuffleFrom_getElem_top 254 (by decide) seed identityTable)).trans
    (identityTable_toNat _)

/-- Entry 254 is the second draw modulo 255, or 255 where the first exchange has moved that entry there. -/
theorem buildPermutation_254 (seed : Word) :
    (buildPermutation seed)[254].toNat =
      if (lcgNext (lcgNext seed)).toNat % 255 = (lcgNext seed).toNat % 256 then 255
      else (lcgNext (lcgNext seed)).toNat % 255 := by
  rw [buildPermutation_eq_shuffleFrom]
  refine (congrArg BitVec.toNat (shuffleFrom_getElem_second 253 (by decide) seed identityTable)).trans ?_
  rw [apply_ite BitVec.toNat, identityTable_toNat, identityTable_toNat]
  rfl

/-- Settles O13, by the tables of the loop from index 255 and the entries that its first two iterations fix. -/
theorem shuffleRunsFromTheTopDown : Obligations.ShuffleRunsFromTheTopDown := by
  intro seed
  refine ⟨?_, buildPermutation_255 seed, buildPermutation_254 seed⟩
  obtain ⟨table, hfirst, hlast, hstep⟩ := exists_tables_shuffleFrom 255 (by decide) seed identityTable
  refine ⟨table, fun v hv => ?_, fun i hi hle => ?_, ?_⟩
  · rw [hfirst, Vector.getElem?_eq_getElem hv]
    exact congrArg some (BitVec.eq_of_toNat_eq ((identityTable_toNat hv).trans (Nat.mod_eq_of_lt hv).symm))
  · obtain ⟨k, rfl⟩ := Nat.exists_eq_add_of_le' hi
    have hdraw : 256 - (k + 1) = 255 - k := by omega
    rw [hdraw]
    exact hstep k hle
  · rw [hlast, buildPermutation_eq_shuffleFrom]

end Sys2Proof.Proofs
end

section
/-! PROOFS. The constructions (spec/40_permutation_generator.md R96, R97, R100): CONSTRUCT and CONSTRUCT.S replace the
table and answer, and beside reset nothing else writes the table. -/

namespace Sys2Proof.Proofs

open Sys2Proof.Machine

/-- CONSTRUCT is CONSTRUCT.S with the seed 0 (R96, R97). -/
theorem exec_construct_eq_constructS_zero (s : State) : exec .construct s = exec (.constructS 0#32) s := rfl

theorem exec_constructS (seed : Word) (s : State) :
    exec (.constructS seed) s = .next (pushRsp 0x00000001#32 [] { s with perm := buildPermutation seed }) := by
  rw [← responseWord_construct]
  rfl

/-- Settles O15, by what `push_rsp` leaves unchanged. -/
theorem constructSBuildsTheTableOfItsSeed : Obligations.ConstructSBuildsTheTableOfItsSeed := by
  intro seed s
  obtain ⟨hposted, -⟩ := responded_pushRsp_set_perm s (buildPermutation seed) 0x00000001#32 []
  exact ⟨_, exec_constructS seed s, pushRsp_perm .., hposted, pushRsp_windows .., pushRsp_faulted .., pushRsp_cause ..,
    pushRsp_finfo .., pushRsp_cmdbuf .., pushRsp_mem .., pushRsp_draws .., pushRsp_host .., pushRsp_cfg ..⟩

/-- Settles O14. -/
theorem constructBuildsTheSeedZeroTable : Obligations.ConstructBuildsTheSeedZeroTable := by
  intro s
  rw [exec_construct_eq_constructS_zero]
  exact constructSBuildsTheTableOfItsSeed 0#32 s

/-! Who writes the table (R100). -/

theorem takeResponse_keeps_perm {s t : State} (h : takeResponse s = .next t) : t.perm = s.perm := by
  obtain ⟨w, rest, -, rfl⟩ := takeResponse_eq_next h
  rfl

theorem hostStore_keeps_perm {s t : State} {a : Nat} {v : Word} (h : hostStore a v s = .next t) : t.perm = s.perm := by
  obtain ⟨-, -, -, rfl⟩ := hostStore_eq_next h
  rfl

/-- A command keeps the table, or is a construction and has built it from its seed, 0 for CONSTRUCT. -/
theorem exec_perm_cases {i : Instr} {s t : State} (h : exec i s = .next t) :
    t.perm = s.perm ∨
      ∃ seed, (i = .construct ∧ seed = 0#32 ∨ i = .constructS seed) ∧ t.perm = buildPermutation seed := by
  rcases exec_cases h with ⟨seed, hi, rfl⟩ | ⟨x, y, z, o, n, -, ⟨c, info, -, rfl⟩ | ⟨-, u, hu, rfl⟩⟩
  case inl => exact .inr ⟨seed, hi, pushRsp_perm ..⟩
  case inr.inl => exact .inl (raiseFault_perm ..)
  case inr.inr =>
    have hframe : u.perm = s.perm := by rw [processSamples_eq_next hu]
    exact .inl ((pushRsp_perm ..).trans hframe)

/-- Settles O53, by the cases of a step: in each case but a reset and a construction the table is kept. -/
theorem onlyConstructionsWriteTheTable : Obligations.OnlyConstructionsWriteTheTable := by
  intro s t h hperm
  obtain ⟨event, rest, hhost, hcase⟩ := step_cases h
  rcases hcase with ⟨-, ht⟩ | ⟨cell, value, -, hst⟩ | ⟨rfl, rfl⟩ | ⟨-, -, w, hw⟩
  · exact absurd (takeResponse_keeps_perm ht) hperm
  · exact absurd (hostStore_keeps_perm hst) hperm
  · exact .inl ⟨rest, hhost, doReset_perm _⟩
  · rcases hw with ⟨i, more, hd, ⟨rfl, he⟩ | ⟨rfl, rfl⟩⟩ | ⟨-, ⟨-, rfl⟩ | ⟨rfl, rfl⟩⟩ | ⟨hdr, -, ⟨-, rfl⟩ | ⟨rfl, rfl⟩⟩
    · rcases exec_perm_cases he with hkeep | ⟨seed, ⟨rfl, rfl⟩ | rfl, hbuilt⟩
      · exact absurd hkeep hperm
      · exact .inr (.inr (.inl ⟨w, rest, more, hhost, hd, hbuilt⟩))
      · exact .inr (.inr (.inr ⟨w, rest, more, seed, hhost, hd, hbuilt⟩))
    · exact .inr (.inl ⟨w, rest, hhost, doReset_perm _⟩)
    · exact absurd rfl hperm
    · exact .inr (.inl ⟨w, rest, hhost, doReset_perm _⟩)
    · exact absurd (raiseFault_perm ..) hperm
    · exact .inr (.inl ⟨w, rest, hhost, doReset_perm _⟩)

end Sys2Proof.Proofs
end

section
/-! PROOFS. What the binary32 operations answer (spec/43_arithmetic.md R166 to R172), said once for the noise kernel:
a NaN for a NaN, and for finite operands the exact result wherever that is a binary32 number. -/

namespace Sys2Proof.Proofs

open Sys2Proof.Machine

set_option exponentiation.threshold 300

/-! The NaN of a draw (R170). -/

theorem expField_eq_extractLsb' (a : Word) : expField a = (a.extractLsb' 23 8).toNat := by
  rw [BitVec.extractLsb'_toNat, Nat.shiftRight_eq_div_pow]
  rfl

theorem fracField_eq_setWidth (a : Word) : fracField a = (a.setWidth 23).toNat := (BitVec.toNat_setWidth 23 a).symm

theorem isNaN_nanOf (draw : Word) : isNaN (nanOf draw) = true := by
  have hexp : ∀ p : Word, p.extractLsb' 23 8 = BitVec.allOnes 8 → expField (draw ||| p) = 255 := by
    intro p hp
    rw [expField_eq_extractLsb', BitVec.extractLsb'_or, hp, BitVec.or_allOnes]
    rfl
  have hfrac : fracField (nanOf draw) ≠ 0 := by
    unfold nanOf
    split
    case isTrue h =>
      rw [fracField_eq_setWidth, BitVec.setWidth_or, BitVec.toNat_or, ← fracField_eq_setWidth draw, h]
      decide
    case isFalse h =>
      rw [fracField_eq_setWidth, BitVec.setWidth_or, show (0x7F800000#32).setWidth 23 = 0#23 by decide, BitVec.or_zero,
        ← fracField_eq_setWidth]
      exact h
  have hexp : expField (nanOf draw) = 255 := by
    unfold nanOf
    split
    · exact hexp _ (by decide)
    · exact hexp _ (by decide)
  simp [isNaN, hexp, hfrac]

/-! The kind of a pattern and its value. -/

theorem isNaN_fneg (a : Word) : isNaN (fneg a) = isNaN a := by
  rw [Bool.eq_iff_iff, isNaN_iff_lowBits, isNaN_iff_lowBits, lowBits_fneg]

theorem isInf_fneg (a : Word) : isInf (fneg a) = isInf a := by
  rw [Bool.eq_iff_iff, isInf_iff_lowBits, isInf_iff_lowBits, lowBits_fneg]

theorem isFinite_fneg (a : Word) : isFinite (fneg a) = isFinite a := by
  rw [Bool.eq_iff_iff, isFinite_iff_lowBits, isFinite_iff_lowBits, lowBits_fneg]

theorem isNaN_of_isInf {a : Word} (h : isInf a = true) : isNaN a = false := by
  rw [isInf_iff_lowBits] at h
  rw [← Bool.not_eq_true, isNaN_iff_lowBits]
  omega

theorem isZero_iff_scaled (a : Word) : isZero a = true ↔ scaled a = 0 := by
  have hzero : bitsMagnitude (lowBits a) = 0 ↔ lowBits a = 0 :=
    bitsMagnitude_strictMono.injective.eq_iff' (show bitsMagnitude 0 = 0 from rfl)
  rw [isZero_iff_lowBits, ← hzero, scaled_eq]
  split <;> omega

theorem isFinite_of_isZero {a : Word} (h : isZero a = true) : isFinite a = true := by
  rw [isZero_iff_lowBits] at h
  rw [isFinite_iff_lowBits, h]
  decide

theorem scaled_natAbs_le_of_isFinite {c : Word} (hc : isFinite c = true) :
    (scaled c).natAbs ≤ (2 ^ 24 - 1) * 2 ^ 253 := by
  have hmax : bitsMagnitude 0x7F7FFFFF = (2 ^ 24 - 1) * 2 ^ 253 := by decide
  rw [scaled_natAbs, magnitude_eq_bitsMagnitude, ← hmax]
  exact bitsMagnitude_strictMono.monotone (Nat.le_of_lt_succ ((isFinite_iff_lowBits c).1 hc))

theorem signBit_eq_of_scaled_ne_zero {a : Word} (h : scaled a ≠ 0) : signBit a = decide (scaled a < 0) := by
  rw [scaled_eq] at h ⊢
  cases hs : signBit a
  · exact (decide_eq_false (by simp)).symm
  · rw [hs, if_pos rfl] at h
    exact (decide_eq_true (by rw [if_pos rfl]; omega)).symm

/-- A value other than zero has one pattern. -/
theorem eq_of_scaled_eq {a b : Word} (h : scaled a = scaled b) (hne : scaled a ≠ 0) : a = b := by
  have hsign : signBit a = signBit b := by
    rw [signBit_eq_of_scaled_ne_zero hne, signBit_eq_of_scaled_ne_zero (h ▸ hne), h]
  have hlow : lowBits a = lowBits b := by
    refine bitsMagnitude_strictMono.injective ?_
    rw [← magnitude_eq_bitsMagnitude, ← magnitude_eq_bitsMagnitude, ← scaled_natAbs, ← scaled_natAbs, h]
  rw [← withSign_lowBits a, ← withSign_lowBits b, hsign, hlow]

/-! Packing an exact magnitude (R166). -/

theorem isFinite_withSign_packMagnitude (neg : Bool) {m : Nat} (h : m < 2 ^ 277 - 2 ^ 252) :
    isFinite (withSign neg (packMagnitude m 0)) = true := by
  have hle := packMagnitude_le m 0
  have hne := (packMagnitude_eq_inf_iff m 0).not.2 (by omega)
  rw [isFinite_iff_lowBits, lowBits_withSign neg (packMagnitude_lt m 0)]
  omega

/-- Rounding does not pass a binary32 magnitude. -/
theorem bitsMagnitude_packMagnitude_le {m b : Nat} (h : m ≤ bitsMagnitude b) :
    bitsMagnitude (packMagnitude m 0) ≤ bitsMagnitude b := by
  have hnear := (rawPack_nearest m 0 b).1
  have hmin := bitsMagnitude_strictMono.monotone (Nat.min_le_left (rawPack m 0) 0x7F800000)
  rw [packMagnitude_eq]
  rw [pow_zero, mul_one, mul_one] at hnear
  omega

/-- A binary32 magnitude is packed exactly. -/
theorem bitsMagnitude_packMagnitude_self {b : Nat} (hb : b < 0x7F800000) :
    bitsMagnitude (packMagnitude (bitsMagnitude b) 0) = bitsMagnitude b := by
  have h := packMagnitude_exact hb 0
  rw [pow_zero, mul_one] at h
  rw [h]

/-- So is a multiple of `2^e` that is at most `2^24` times it. -/
theorem bitsMagnitude_packMagnitude_of_dvd {m e : Nat} (hd : 2 ^ e ∣ m) (hle : m ≤ 2 ^ 24 * 2 ^ e) (hm : m < 2 ^ 277) :
    bitsMagnitude (packMagnitude m 0) = m := by
  obtain ⟨q, rfl⟩ := hd
  rw [mul_comm] at hle hm ⊢
  exact bitsMagnitude_packMagnitude (Nat.le_of_mul_le_mul_right hle (Nat.two_pow_pos e)) hm

theorem scaled_withSign_of_bitsMagnitude {v : Int} {b : Nat} (hb : b < 2 ^ 31) (h : bitsMagnitude b = v.natAbs) :
    scaled (withSign (decide (v < 0)) b) = v := by
  rw [scaled_withSign _ hb, h]
  by_cases hv : v < 0
  · rw [decide_eq_true hv, if_pos rfl]; omega
  · rw [decide_eq_false hv, if_neg Bool.false_ne_true]; omega

/-! Addition. -/

theorem isNaN_fadd {a b : Word} (h : isNaN a = true ∨ isNaN b = true) : isNaN (fadd a b) = true := by
  have heq : fadd a b = opNaN .add a b := by
    unfold fadd
    exact if_pos (Bool.or_eq_true_iff.2 h)
  rw [heq]
  exact isNaN_nanOf _

theorem isNaN_fsub {a b : Word} (h : isNaN a = true ∨ isNaN b = true) : isNaN (fsub a b) = true :=
  isNaN_fadd (h.imp_right (isNaN_fneg b).trans)

/-- An infinity less itself is a NaN (R170). -/
theorem isNaN_fsub_self_of_isInf {a : Word} (h : isInf a = true) : isNaN (fsub a a) = true := by
  have heq : fsub a a = opNaN .add a (fneg a) := by
    unfold fsub fadd
    simp [isNaN_fneg, isInf_fneg, signBit_fneg, isNaN_of_isInf h, h]
  rw [heq]
  exact isNaN_nanOf _

theorem fadd_of_isFinite {a b : Word} (ha : isFinite a = true) (hb : isFinite b = true) :
    fadd a b = if scaled a + scaled b = 0 then withSign (signBit a && signBit b) 0
      else withSign (decide (scaled a + scaled b < 0)) (packMagnitude (scaled a + scaled b).natAbs 0) := by
  obtain ⟨hia, hna⟩ := (isFinite_iff a).1 ha
  obtain ⟨hib, hnb⟩ := (isFinite_iff b).1 hb
  simp only [fadd, hia, hna, hib, hnb, Bool.or_self, Bool.false_eq_true, if_false]

theorem isFinite_fadd {a b : Word} (ha : isFinite a = true) (hb : isFinite b = true)
    (h : (scaled a + scaled b).natAbs < 2 ^ 277 - 2 ^ 252) : isFinite (fadd a b) = true := by
  rw [fadd_of_isFinite ha hb]
  split
  · cases signBit a && signBit b <;> rfl
  · exact isFinite_withSign_packMagnitude _ h

/-- A sum that is a binary32 number is exact. -/
theorem scaled_fadd_of_scaled_eq {a b c : Word} (ha : isFinite a = true) (hb : isFinite b = true)
    (hc : isFinite c = true) (h : scaled a + scaled b = scaled c) : scaled (fadd a b) = scaled c := by
  rw [fadd_of_isFinite ha hb, h]
  split
  case isTrue hzero =>
    rw [hzero]
    cases signBit a && signBit b <;> rfl
  case isFalse =>
    refine scaled_withSign_of_bitsMagnitude (packMagnitude_lt _ 0) ?_
    rw [scaled_natAbs, magnitude_eq_bitsMagnitude]
    exact bitsMagnitude_packMagnitude_self ((isFinite_iff_lowBits c).1 hc)

/-- Adding a zero keeps the value. -/
theorem fadd_of_isZero {a b : Word} (ha : isFinite a = true) (hb : isZero b = true) :
    isFinite (fadd a b) = true ∧ scaled (fadd a b) = scaled a := by
  have hsum : scaled a + scaled b = scaled a := by rw [(isZero_iff_scaled b).1 hb, add_zero]
  have hfin := isFinite_of_isZero hb
  refine ⟨isFinite_fadd ha hfin ?_, scaled_fadd_of_scaled_eq ha hfin ha hsum⟩
  have hle := scaled_natAbs_le_of_isFinite ha
  omega

/-- Rounding a sum does not pass a binary32 magnitude. -/
theorem scaled_fadd_natAbs_le {a b : Word} (ha : isFinite a = true) (hb : isFinite b = true) {k : Nat}
    (h : (scaled a + scaled b).natAbs ≤ bitsMagnitude k) : (scaled (fadd a b)).natAbs ≤ bitsMagnitude k := by
  rw [fadd_of_isFinite ha hb]
  split
  · rw [scaled_withSign _ (by decide)]
    split <;> exact Nat.zero_le _
  · rw [scaled_withSign _ (packMagnitude_lt _ 0)]
    have := bitsMagnitude_packMagnitude_le h
    split <;> omega

/-! Multiplication. -/

theorem isNaN_fmul {a b : Word} (h : isNaN a = true ∨ isNaN b = true) : isNaN (fmul a b) = true := by
  have heq : fmul a b = opNaN .mul a b := by
    unfold fmul
    exact if_pos (Bool.or_eq_true_iff.2 h)
  rw [heq]
  exact isNaN_nanOf _

theorem isZero_fmul_of_isZero {a b : Word} (ha : isZero a = true) (hb : isFinite b = true) :
    isZero (fmul a b) = true := by
  obtain ⟨hia, hna⟩ := (isFinite_iff a).1 (isFinite_of_isZero ha)
  obtain ⟨hib, hnb⟩ := (isFinite_iff b).1 hb
  have hmag : magnitude a = 0 := by rw [← scaled_natAbs, (isZero_iff_scaled a).1 ha]; rfl
  have heq : fmul a b = withSign (signBit a != signBit b) 0 := by
    simp only [fmul, hia, hna, hib, hnb, hmag, zero_mul, Bool.or_self, Bool.false_and, Bool.and_false,
      Bool.false_eq_true, if_false]
    rfl
  rw [heq, isZero_iff_lowBits]
  exact lowBits_withSign _ (by decide)

end Sys2Proof.Proofs
end

section
/-! PROOFS. The lattice of a coordinate (spec/41_noise_kernel.md R111, R112): the floor of a finite coordinate is
exact, so the index is the mathematical floor modulo 256, and the fractional part is the remainder modulo 1, rounded once. -/

namespace Sys2Proof.Proofs

open Sys2Proof.Machine

set_option exponentiation.threshold 300

/-! The floor (R169). -/

theorem ffloor_of_isFinite {c : Word} (hc : isFinite c = true) :
    ffloor c = if floorInt c = 0 then withSign (signBit c) 0
      else withSign (decide (floorInt c < 0)) (packMagnitude ((floorInt c).natAbs * 2 ^ 149) 0) := by
  obtain ⟨hinf, hnan⟩ := (isFinite_iff c).1 hc
  simp only [ffloor, hinf, hnan, Bool.false_eq_true, if_false]

/-- A finite value of at least `2^(k + 23)` units is a multiple of `2^k` of them. -/
theorem two_pow_dvd_scaled {c : Word} {k : Nat} (h : 2 ^ (k + 23) ≤ (scaled c).natAbs) : (2 ^ k : Int) ∣ scaled c := by
  rw [scaled_natAbs, magnitude_eq_bitsMagnitude] at h
  have hd := dvd_bitsMagnitude h
  rw [← magnitude_eq_bitsMagnitude, ← scaled_natAbs] at hd
  exact_mod_cast Int.natCast_dvd.2 hd

/-- The magnitude of a floor is a binary32 number: below `2^23` an integer of 24 bits, and from there on the value
itself. -/
theorem bitsMagnitude_packMagnitude_floorInt {c : Word} (hc : isFinite c = true) :
    bitsMagnitude (packMagnitude ((floorInt c).natAbs * 2 ^ 149) 0) = (floorInt c).natAbs * 2 ^ 149 := by
  unfold floorInt
  by_cases hbig : 2 ^ 172 ≤ (scaled c).natAbs
  · obtain ⟨q, hq⟩ := two_pow_dvd_scaled (k := 149) hbig
    have hself : (scaled c / 2 ^ 149).natAbs * 2 ^ 149 = bitsMagnitude (lowBits c) := by
      rw [← magnitude_eq_bitsMagnitude, ← scaled_natAbs]
      omega
    rw [hself]
    exact bitsMagnitude_packMagnitude_self ((isFinite_iff_lowBits c).1 hc)
  · exact bitsMagnitude_packMagnitude (by omega) (by omega)

/-- The floor of a finite value is exact (R169). -/
theorem scaled_ffloor {c : Word} (hc : isFinite c = true) : scaled (ffloor c) = floorInt c * 2 ^ 149 := by
  rw [ffloor_of_isFinite hc]
  split
  case isTrue hzero =>
    rw [hzero]
    cases signBit c <;> rfl
  case isFalse =>
    have hneg : decide (floorInt c < 0) = decide (floorInt c * 2 ^ 149 < 0) := decide_eq_decide.2 (by omega)
    rw [hneg]
    refine scaled_withSign_of_bitsMagnitude (packMagnitude_lt _ 0) ?_
    rw [bitsMagnitude_packMagnitude_floorInt hc, Int.natAbs_mul]
    rfl

theorem isFinite_ffloor {c : Word} (hc : isFinite c = true) : isFinite (ffloor c) = true := by
  rw [ffloor_of_isFinite hc]
  split
  · cases signBit c <;> rfl
  · refine isFinite_withSign_packMagnitude _ ?_
    have hle := scaled_natAbs_le_of_isFinite hc
    unfold floorInt
    omega

/-- An integer is its own floor, a zero with its sign (R169). -/
theorem ffloor_of_dvd {c : Word} (hc : isFinite c = true) (h : (2 ^ 149 : Int) ∣ scaled c) : ffloor c = c := by
  have hval : scaled (ffloor c) = scaled c := (scaled_ffloor hc).trans (Int.ediv_mul_cancel h)
  by_cases hzero : scaled c = 0
  · have hfloor : floorInt c = 0 := by rw [floorInt, hzero]; rfl
    rw [ffloor_of_isFinite hc, if_pos hfloor, ← (isZero_iff_lowBits c).1 ((isZero_iff_scaled c).2 hzero)]
    exact withSign_lowBits c
  · exact eq_of_scaled_eq hval (hval ▸ hzero)

theorem ffloor_of_isInf {c : Word} (h : isInf c = true) : ffloor c = c := by
  simp only [ffloor, isNaN_of_isInf h, h, Bool.false_eq_true, if_false, if_true]

/-! The lattice index (R111, R164). -/

theorem latticeIndex_of_isFinite (d : Nat) {c : Word} (hc : isFinite c = true) :
    (latticeIndex d c : Int) = scaled c / 2 ^ 149 % 256 := by
  have hint : intOf (ffloor c) = scaled c / 2 ^ 149 := by
    unfold intOf
    rw [floorInt, scaled_ffloor hc]
    exact Int.mul_ediv_cancel _ (by norm_num)
  rw [latticeIndex, if_pos hc, hint]
  omega

/-- Settles O22. -/
theorem latticeIndexIsTheFloorModulo256 : Obligations.LatticeIndexIsTheFloorModulo256 := by
  intro d c hc
  have hfloor : ⌊(scaled c : ℚ) / 2 ^ 149⌋ = scaled c / 2 ^ 149 := by
    exact_mod_cast Rat.floor_intCast_div_natCast (scaled c) (2 ^ 149)
  rw [hfloor]
  exact latticeIndex_of_isFinite d hc

/-! The fractional part (R112). -/

/-- The fractional part is the exact remainder modulo 1, rounded once. -/
theorem frac_of_isFinite {c : Word} (hc : isFinite c = true) :
    frac c = withSign false (packMagnitude (scaled c % 2 ^ 149).toNat 0) := by
  have hfin := isFinite_ffloor hc
  have hsum : scaled c + scaled (fneg (ffloor c)) = scaled c % 2 ^ 149 := by
    rw [scaled_fneg, scaled_ffloor hc, floorInt]
    omega
  rw [frac, fsub, fadd_of_isFinite hc ((isFinite_fneg _).trans hfin), hsum]
  split
  case isTrue hzero =>
    rw [ffloor_of_dvd hc (Int.dvd_of_emod_eq_zero hzero), signBit_fneg, Bool.and_not_self, hzero]
    rfl
  case isFalse =>
    have hneg : decide (scaled c % 2 ^ 149 < 0) = false := decide_eq_false (by omega)
    rw [hneg]
    congr 2
    omega

/-- The fractional part of an integer is `+0`. -/
theorem frac_of_dvd {c : Word} (hc : isFinite c = true) (h : (2 ^ 149 : Int) ∣ scaled c) : frac c = 0x00000000#32 := by
  rw [frac_of_isFinite hc, Int.emod_eq_zero_of_dvd h]
  rfl

theorem bitsMagnitude_one : bitsMagnitude 0x3F800000 = 2 ^ 149 := by decide

/-- A remainder within half a unit of the last place from 1 is rounded to 1, the even one of two equally near. -/
theorem packMagnitude_near_one {r : Nat} (hlo : 2 ^ 149 - 2 ^ 124 ≤ r) (hhi : r < 2 ^ 149) :
    packMagnitude r 0 = 0x3F800000 := by
  have hbelow : bitsMagnitude 0x3F7FFFFF = 2 ^ 149 - 2 ^ 125 := by decide
  obtain ⟨hnear, htie⟩ := rawPack_nearest r 0 0x3F800000
  rw [pow_zero, mul_one, mul_one, bitsMagnitude_one] at hnear htie
  have hraw : rawPack r 0 = 0x3F800000 := by
    rcases Nat.lt_trichotomy (rawPack r 0) 0x3F800000 with hlt | heq | hgt
    · -- the next number below 1 is as near at best, and it is odd
      have hle := bitsMagnitude_strictMono.monotone (Nat.le_of_lt_succ hlt)
      rw [hbelow] at hle
      have hval : bitsMagnitude (rawPack r 0) = bitsMagnitude 0x3F7FFFFF := by omega
      have hodd := bitsMagnitude_strictMono.injective hval
      have heven := htie (by omega) (by omega)
      omega
    · exact heq
    · have hlt := bitsMagnitude_strictMono hgt
      rw [bitsMagnitude_one] at hlt
      omega
  rw [packMagnitude_eq, hraw]
  rfl

/-- The remainder is a binary32 number for a coordinate at or above 0 or at or below -0.5. -/
theorem bitsMagnitude_packMagnitude_emod {c : Word} (hc : isFinite c = true)
    (h : 0 ≤ scaled c ∨ scaled c ≤ -(2 ^ 148)) :
    bitsMagnitude (packMagnitude (scaled c % 2 ^ 149).toNat 0) = (scaled c % 2 ^ 149).toNat := by
  by_cases hbig : 2 ^ 148 ≤ (scaled c).natAbs
  · have hd := two_pow_dvd_scaled (k := 125) hbig
    exact bitsMagnitude_packMagnitude_of_dvd (e := 125) (by omega) (by omega) (by omega)
  · have hself : (scaled c % 2 ^ 149).toNat = bitsMagnitude (lowBits c) := by
      rw [← magnitude_eq_bitsMagnitude, ← scaled_natAbs]
      omega
    rw [hself]
    exact bitsMagnitude_packMagnitude_self ((isFinite_iff_lowBits c).1 hc)

/-- Settles O23, by the remainder modulo 1 that the fractional part rounds. -/
theorem fractionalPartIsBetweenZeroAndOne : Obligations.FractionalPartIsBetweenZeroAndOne := by
  intro c hc
  have hrem : (scaled c % 2 ^ 149).toNat < 2 ^ 149 := by omega
  have hscaled : scaled (frac c) = bitsMagnitude (packMagnitude (scaled c % 2 ^ 149).toNat 0) := by
    rw [frac_of_isFinite hc, scaled_withSign _ (packMagnitude_lt _ 0), if_neg Bool.false_ne_true]
  have hle := bitsMagnitude_packMagnitude_le (hrem.le.trans bitsMagnitude_one.ge)
  rw [bitsMagnitude_one] at hle
  refine ⟨?_, ?_, by omega, by omega, fun h => ?_, fun hlo hhi => ?_⟩
  · rw [frac_of_isFinite hc]
    exact isFinite_withSign_packMagnitude _ (by omega)
  · rw [frac_of_isFinite hc, signBit_withSign _ (packMagnitude_lt _ 0)]
  · rw [hscaled, bitsMagnitude_packMagnitude_emod hc h, scaled_ffloor hc, floorInt]
    omega
  · rw [frac_of_isFinite hc, packMagnitude_near_one (by omega) hrem]
    rfl

end Sys2Proof.Proofs
end

section
/-! PROOFS. The table look-ups and the gradients (spec/41_noise_kernel.md R114 to R116): HASH sees its index modulo 256
only, so 8-bit sums make the same look-ups, and GRAD sees the low four bits of its table entry only. -/

namespace Sys2Proof.Proofs

open Sys2Proof.Machine

/-! HASH (R114). -/

theorem hash_congr (perm : PermTable) {i j : Nat} (h : i % 256 = j % 256) : hash perm i = hash perm j := by
  simp only [Machine.hash, h]

theorem hash_lt (perm : PermTable) (i : Nat) : hash perm i < 256 := BitVec.isLt _

/-- Settles O25. -/
theorem hashReducesItsIndexModulo256 : Obligations.HashReducesItsIndexModulo256 := by
  refine ⟨fun perm i hi => ?_, fun perm i => ⟨hash_congr perm (Nat.add_mod_right i 256), hash_lt perm i⟩⟩
  simp only [Machine.hash, Nat.mod_eq_of_lt hi]

/-- A look-up at a sum of table entry, index and offset does not change when its parts are kept in 8 bits (R162). -/
theorem hash_wrap (perm : PermTable) {i k : Nat} (hik : i % 256 = k % 256) (Z j : Nat) :
    hash perm ((hash perm i + Z + j) % 256) = hash perm (hash perm k + Z + j) := by
  rw [hash_congr perm hik]
  exact hash_congr perm (Nat.mod_mod _ 256)

/-- Settles O26: a table entry and an index are below 256, and each look-up sees its sum modulo 256. -/
theorem hashChainFitsNineBitsAndWrapsInEight : Obligations.HashChainFitsNineBitsAndWrapsInEight := by
  intro perm X Y Z hX hY hZ c A B
  have hsum : ∀ (i : Nat) {t : Nat}, t < 256 → hash perm i + t ≤ 510 := fun i t ht => by
    have := hash_lt perm i
    omega
  have hA : A % 256 = c.A % 256 := Nat.mod_mod _ 256
  have hB : B % 256 = c.B % 256 := by
    have hX1 : hash perm ((X + 1) % 256) = hash perm (X + 1) := hash_congr perm (Nat.mod_mod _ 256)
    exact (Nat.mod_mod _ 256).trans (by rw [hX1]; rfl)
  have hnext : ∀ {i k : Nat}, i % 256 = k % 256 → (i + 1) % 256 % 256 = (k + 1) % 256 := fun h => by omega
  exact ⟨⟨rfl, rfl, rfl, rfl, rfl, rfl⟩, ⟨hsum _ hY, hsum _ hZ, hsum _ hZ, hsum _ hY, hsum _ hZ, hsum _ hZ⟩,
    fun j => ⟨hash_wrap perm hA Z j, hash_wrap perm (hnext hA) Z j, hash_wrap perm hB Z j,
      hash_wrap perm (hnext hB) Z j⟩⟩

/-! GRAD (R116). -/

theorem grad_of_mod_eq {hv k : Nat} (h : hv % 16 = k) (gx gy gz : Word) : grad hv gx gy gz = grad k gx gy gz := by
  have hk : k % 16 = hv % 16 := by omega
  simp only [grad, hk]

/-- Settles O27: each of the sixteen rows is GRAD of its row number. -/
theorem gradientFollowsItsTable : Obligations.GradientFollowsItsTable := fun hv gx gy gz =>
  have row {k : Nat} (h : hv % 16 = k) : grad hv gx gy gz = grad k gx gy gz := grad_of_mod_eq h gx gy gz
  ⟨row, row, row, row, row, row, row, row, row, row, row, row, row, row, row, row⟩

/-- What holds of the three offsets and of their negations, and passes from two addends to their sum, holds of a
gradient. -/
theorem grad_of_offsets {P Q : Word → Prop} (hneg : ∀ g, P g → P (fneg g)) (hadd : ∀ a b, P a → P b → Q (fadd a b))
    (hv : Nat) {gx gy gz : Word} (hx : P gx) (hy : P gy) (hz : P gz) : Q (grad hv gx gy gz) := by
  have hsigned : ∀ (p : Prop) [Decidable p] (g : Word), P g → P (if p then g else fneg g) := fun p _ g hg => by
    split
    · exact hg
    · exact hneg g hg
  refine hadd _ _ (hsigned _ _ ?_) (hsigned _ _ ?_)
  · split
    · exact hx
    · exact hy
  · split
    · exact hy
    · split
      · exact hx
      · exact hz

end Sys2Proof.Proofs
end

section
/-! PROOFS. EVALUATE (spec/41_noise_kernel.md R110, R122, R123, R125): it sees a coordinate only through the kind, the
fractional part and the lattice index, and a coordinate that is not finite makes a weight a NaN. -/

namespace Sys2Proof.Proofs

open Sys2Proof.Machine

/-! What EVALUATE sees of a coordinate. -/

/-- All that EVALUATE number `d` sees of a coordinate: whether it is finite, its fractional part, its lattice index. -/
def kernelView (d : Nat) (c : Word) : Bool × Word × Nat := (isFinite c, frac c, latticeIndex d c)

theorem interpolate_congr {d d' : Nat} (perm : PermTable) {x x' y y' z z' : Word}
    (hx : kernelView d' x' = kernelView d x) (hy : kernelView d' y' = kernelView d y)
    (hz : kernelView d' z' = kernelView d z) : interpolate d' perm x' y' z' = interpolate d perm x y z := by
  simp only [kernelView, Prod.mk.injEq] at hx hy hz
  simp only [interpolate, hx, hy, hz]

theorem evaluate_congr {d : Nat} (perm : PermTable) {x x' y y' z z' : Word} (hx : kernelView d x' = kernelView d x)
    (hy : kernelView d y' = kernelView d y) (hz : kernelView d z' = kernelView d z) :
    evaluate d perm x' y' z' = evaluate d perm x y z := by
  have hfinite : isFinite x' = isFinite x ∧ isFinite y' = isFinite y ∧ isFinite z' = isFinite z :=
    ⟨congrArg Prod.fst hx, congrArg Prod.fst hy, congrArg Prod.fst hz⟩
  simp only [evaluate, hfinite, interpolate_congr perm hx hy hz]

theorem evaluate_of_isFinite (d : Nat) (perm : PermTable) {x y z : Word} (hx : isFinite x = true)
    (hy : isFinite y = true) (hz : isFinite z = true) : evaluate d perm x y z = interpolate d perm x y z := by
  simp only [evaluate, hx, hy, hz, Bool.and_self, if_true]

/-- Finite coordinates a multiple of 256 apart look the same, and no draw is seen. -/
theorem kernelView_of_scaled_eq_add (d d' : Nat) {c c' : Word} (hc : isFinite c = true) (hc' : isFinite c' = true)
    {m : Int} (h : scaled c' = scaled c + m * (256 * 2 ^ 149)) : kernelView d' c' = kernelView d c := by
  have hfrac : frac c' = frac c := by
    have hrem : scaled c' % 2 ^ 149 = scaled c % 2 ^ 149 := by omega
    rw [frac_of_isFinite hc, frac_of_isFinite hc', hrem]
  have hindex : latticeIndex d' c' = latticeIndex d c := by
    have hc := latticeIndex_of_isFinite d hc
    have hc' := latticeIndex_of_isFinite d' hc'
    omega
  rw [kernelView, kernelView, hc, hc', hfrac, hindex]

/-- Settles O33: both coordinates have the same remainder modulo 1 and the same floor modulo 256. -/
theorem noiseHasPeriod256OnEachAxis : Obligations.NoiseHasPeriod256OnEachAxis := by
  intro d perm x x' y z m hx hx' h
  have hview : kernelView d x' = kernelView d x := kernelView_of_scaled_eq_add d d hx hx' h
  exact ⟨evaluate_congr perm hview rfl rfl, evaluate_congr perm rfl hview rfl, evaluate_congr perm rfl rfl hview⟩

/-- Settles O31. -/
theorem evaluateIsPureOnFiniteCoordinates : Obligations.EvaluateIsPureOnFiniteCoordinates := by
  intro d d' perm x y z hx hy hz
  have hview : ∀ {c : Word}, isFinite c = true → kernelView d c = kernelView d' c := fun hc =>
    kernelView_of_scaled_eq_add d' d hc hc (m := 0) (by omega)
  rw [evaluate_of_isFinite d perm hx hy hz, evaluate_of_isFinite d' perm hx hy hz]
  exact interpolate_congr perm (hview hx) (hview hy) (hview hz)

/-- Settles O60: the lattice indices are the three given ones, and the rest is the composition of the rules. -/
theorem evaluateIsTheSevenLerpsOfTheEightGradients : Obligations.EvaluateIsTheSevenLerpsOfTheEightGradients := by
  intro d perm x y z X Y Z hx hy hz hX hY hZ
  have hindex : ∀ {c : Word} {C : Nat}, isFinite c = true → (C : Int) = scaled c / 2 ^ 149 % 256 →
      latticeIndex d c = C := fun hc hC => Int.natCast_inj.1 ((latticeIndex_of_isFinite d hc).trans hC.symm)
  rw [evaluate_of_isFinite d perm hx hy hz, interpolate, hindex hx hX, hindex hy hY, hindex hz hZ]
  rfl

/-! Coordinates that are not finite (R122). -/

/-- The fractional part of a NaN is a NaN, and so is that of an infinity, which is its own floor. -/
theorem isNaN_frac {c : Word} (h : isFinite c = false) : isNaN (frac c) = true := by
  by_cases hnan : isNaN c = true
  · exact isNaN_fsub (.inl hnan)
  · have hinf : isInf c = true := by
      by_contra hinf
      exact Bool.eq_false_iff.1 h ((isFinite_iff c).2 ⟨Bool.eq_false_iff.2 hinf, Bool.eq_false_iff.2 hnan⟩)
    rw [frac, ffloor_of_isInf hinf]
    exact isNaN_fsub_self_of_isInf hinf

theorem isNaN_fade {t : Word} (h : isNaN t = true) : isNaN (fade t) = true := isNaN_fmul (.inl (isNaN_fmul (.inr h)))

theorem isNaN_lerp_of_weight {t : Word} (a b : Word) (h : isNaN t = true) : isNaN (lerp t a b) = true :=
  isNaN_fadd (.inr (isNaN_fmul (.inl h)))

theorem isNaN_lerp_of_near (t : Word) {a : Word} (b : Word) (h : isNaN a = true) : isNaN (lerp t a b) = true :=
  isNaN_fadd (.inl h)

/-- The near value of each axis hands the NaN of a weight on to the last LERP. -/
theorem isNaN_trilinear {u v w : Word} (g : Corners) (h : isNaN u = true ∨ isNaN v = true ∨ isNaN w = true) :
    isNaN (trilinear u v w g) = true := by
  rcases h with hu | hv | hw
  · exact isNaN_lerp_of_near w _ (isNaN_lerp_of_near v _ (isNaN_lerp_of_weight _ _ hu))
  · exact isNaN_lerp_of_near w _ (isNaN_lerp_of_weight _ _ hv)
  · exact isNaN_lerp_of_weight _ _ hw

/-- Settles O29. -/
theorem nonFiniteCoordinateGivesANaN : Obligations.NonFiniteCoordinateGivesANaN := by
  intro d perm x y z h
  constructor
  · have hdraw : evaluate d perm x y z = nanOf (Config.nanOutDraw d) :=
      if_neg (by rcases h with h | h | h <;> simp [h])
    rw [hdraw]
    exact isNaN_nanOf _
  · have hweight {c : Word} (hc : isFinite c = false) : isNaN (fade (frac c)) = true := isNaN_fade (isNaN_frac hc)
    exact isNaN_trilinear _ (h.imp hweight (Or.imp hweight hweight))

/-- Settles O24: the values of section 2.3 by evaluation, the NaN through the products. -/
theorem fadeTakesTheValuesOfTheRule : Obligations.FadeTakesTheValuesOfTheRule := by
  have hvalues : fade 0x00000000#32 = 0x00000000#32 ∧ fade 0x3F800000#32 = 0x3F800000#32 ∧
      fade 0x3F000000#32 = 0x3F000000#32 ∧ fade 0x3E800000#32 = 0x3DD40000#32 ∧ fade 0x3F400000#32 = 0x3F658000#32 ∧
      fade 0x00000001#32 = 0x00000000#32 ∧ fade 0x3F7FFFFF#32 = 0x3F800006#32 := by decide +kernel
  obtain ⟨hzero, hone, hhalf, hquarter, hthree, hsmall, hlarge⟩ := hvalues
  exact ⟨hzero, hone, hhalf, hquarter, hthree, hsmall, hlarge, fun _ => isNaN_fade⟩

end Sys2Proof.Proofs
end

section
/-! PROOFS. LERP with a zero weight, and the noise at integer coordinates (spec/41_noise_kernel.md R119, R124, R126):
all offsets there are 0 or -1, so no difference of two gradients overflows, and every LERP keeps the value of its near
side. -/

namespace Sys2Proof.Proofs

open Sys2Proof.Machine

/-! A zero weight (R119). -/

theorem lerp_of_isZero {t a b : Word} (ht : isZero t = true) (ha : isFinite a = true)
    (hba : isFinite (fsub b a) = true) :
    isFinite (lerp t a b) = true ∧ scaled (lerp t a b) = scaled a :=
  fadd_of_isZero ha (isZero_fmul_of_isZero ht hba)

/-- Settles O28: the value is kept, and a value other than zero has one pattern. -/
theorem lerpAtWeightZeroIsTheNearValue : Obligations.LerpAtWeightZeroIsTheNearValue := by
  intro a b ha hne hba
  obtain ⟨-, hval⟩ := lerp_of_isZero (t := 0x00000000#32) rfl ha hba
  refine eq_of_scaled_eq hval fun hzero => ?_
  rw [(isZero_iff_scaled a).2 (hval.symm.trans hzero)] at hne
  exact Bool.noConfusion hne

/-! Small values. -/

/-- A finite number of magnitude at most `n` units of `2^-149`. -/
def AtMost (n : Nat) (a : Word) : Prop := isFinite a = true ∧ (scaled a).natAbs ≤ n

theorem atMost_fneg {n : Nat} {a : Word} (h : AtMost n a) : AtMost n (fneg a) := by
  obtain ⟨hfin, hle⟩ := h
  exact ⟨(isFinite_fneg a).trans hfin, by rwa [scaled_fneg, Int.natAbs_neg]⟩

theorem atMost_two_pow_fadd {a b : Word} (ha : AtMost (2 ^ 149) a) (hb : AtMost (2 ^ 149) b) :
    AtMost (2 ^ 150) (fadd a b) := by
  obtain ⟨hfa, hla⟩ := ha
  obtain ⟨hfb, hlb⟩ := hb
  have htwo : bitsMagnitude 0x40000000 = 2 ^ 150 := by decide
  have hle := scaled_fadd_natAbs_le hfa hfb (k := 0x40000000) (by omega)
  exact ⟨isFinite_fadd hfa hfb (by omega), htwo ▸ hle⟩

theorem isFinite_fsub_of_atMost {a b : Word} (ha : AtMost (2 ^ 150) a) (hb : AtMost (2 ^ 150) b) :
    isFinite (fsub b a) = true := by
  obtain ⟨hfa, hla⟩ := atMost_fneg ha
  obtain ⟨hfb, hlb⟩ := hb
  exact isFinite_fadd hfb hfa (by omega)

/-- With a zero weight LERP keeps the value of its near side, and so the bound. -/
theorem lerp_of_isZero_of_atMost {t a b : Word} (ht : isZero t = true) (ha : AtMost (2 ^ 150) a)
    (hb : AtMost (2 ^ 150) b) : AtMost (2 ^ 150) (lerp t a b) ∧ scaled (lerp t a b) = scaled a := by
  obtain ⟨hfin, hval⟩ := lerp_of_isZero ht ha.1 (isFinite_fsub_of_atMost ha hb)
  exact ⟨⟨hfin, hval ▸ ha.2⟩, hval⟩

/-! Integer coordinates (R124). -/

theorem atMost_grad (hv : Nat) {gx gy gz : Word} (hx : AtMost (2 ^ 149) gx) (hy : AtMost (2 ^ 149) gy)
    (hz : AtMost (2 ^ 149) gz) : AtMost (2 ^ 150) (grad hv gx gy gz) :=
  grad_of_offsets (P := AtMost (2 ^ 149)) (fun _ => atMost_fneg) (fun _ _ => atMost_two_pow_fadd) hv hx hy hz

theorem isZero_grad_zero (hv : Nat) : isZero (grad hv 0x00000000#32 0x00000000#32 0x00000000#32) = true := by
  refine grad_of_offsets (P := (isZero · = true)) (Q := (isZero · = true)) ?_ ?_ hv rfl rfl rfl
  · intro g hg
    rw [isZero_iff_scaled] at hg ⊢
    rw [scaled_fneg, hg, neg_zero]
  · intro a b ha hb
    obtain ⟨-, hval⟩ := fadd_of_isZero (isFinite_of_isZero ha) hb
    rw [isZero_iff_scaled] at ha ⊢
    exact hval.trans ha

/-- All eight corner gradients are of magnitude at most 2. -/
structure CornersAtMostTwo (g : Corners) : Prop where
  g000 : AtMost (2 ^ 150) g.g000
  g100 : AtMost (2 ^ 150) g.g100
  g010 : AtMost (2 ^ 150) g.g010
  g110 : AtMost (2 ^ 150) g.g110
  g001 : AtMost (2 ^ 150) g.g001
  g101 : AtMost (2 ^ 150) g.g101
  g011 : AtMost (2 ^ 150) g.g011
  g111 : AtMost (2 ^ 150) g.g111

/-- The offsets of an integer point are 0 to its near side and -1 to its far side. -/
theorem cornersAtMostTwo_zero (perm : PermTable) (c : Chain) :
    CornersAtMostTwo (corners perm c 0x00000000#32 0x00000000#32 0x00000000#32) := by
  have near : AtMost (2 ^ 149) 0x00000000#32 := ⟨rfl, by decide⟩
  have far : AtMost (2 ^ 149) (fsub 0x00000000#32 fOne) := by
    rw [show fsub 0x00000000#32 fOne = 0xBF800000#32 by decide +kernel]
    exact ⟨rfl, by decide⟩
  exact ⟨atMost_grad _ near near near, atMost_grad _ far near near, atMost_grad _ near far near,
    atMost_grad _ far far near, atMost_grad _ near near far, atMost_grad _ far near far, atMost_grad _ near far far,
    atMost_grad _ far far far⟩

/-- With three zero weights the interpolation keeps the value of the near corner. -/
theorem scaled_trilinear_of_isZero {u v w : Word} (hu : isZero u = true) (hv : isZero v = true) (hw : isZero w = true)
    {g : Corners} (hg : CornersAtMostTwo g) : scaled (trilinear u v w g) = scaled g.g000 := by
  obtain ⟨l00, hl00⟩ := lerp_of_isZero_of_atMost hu hg.g000 hg.g100
  obtain ⟨l10, -⟩ := lerp_of_isZero_of_atMost hu hg.g010 hg.g110
  obtain ⟨l01, -⟩ := lerp_of_isZero_of_atMost hu hg.g001 hg.g101
  obtain ⟨l11, -⟩ := lerp_of_isZero_of_atMost hu hg.g011 hg.g111
  obtain ⟨m0, hm0⟩ := lerp_of_isZero_of_atMost hv l00 l10
  obtain ⟨m1, -⟩ := lerp_of_isZero_of_atMost hv l01 l11
  obtain ⟨-, hlast⟩ := lerp_of_isZero_of_atMost hw m0 m1
  exact hlast.trans (hm0.trans hl00)

theorem fade_zero : fade 0x00000000#32 = 0x00000000#32 := fadeTakesTheValuesOfTheRule.1

theorem isZero_evaluate_of_dvd (d : Nat) (perm : PermTable) {x y z : Word} (hx : isFinite x = true)
    (hy : isFinite y = true) (hz : isFinite z = true) (hdx : (2 ^ 149 : Int) ∣ scaled x)
    (hdy : (2 ^ 149 : Int) ∣ scaled y) (hdz : (2 ^ 149 : Int) ∣ scaled z) : isZero (evaluate d perm x y z) = true := by
  rw [evaluate_of_isFinite d perm hx hy hz, interpolate, frac_of_dvd hx hdx, frac_of_dvd hy hdy, frac_of_dvd hz hdz,
    fade_zero, isZero_iff_scaled, scaled_trilinear_of_isZero rfl rfl rfl (cornersAtMostTwo_zero perm _),
    ← isZero_iff_scaled]
  exact isZero_grad_zero _

/-- Settles O34. -/
theorem noiseVanishesAtLatticePoints : Obligations.NoiseVanishesAtLatticePoints := by
  intro d perm x y z hx hy hz hdx hdy hdz
  have hfx := frac_of_dvd hx hdx
  have hfy := frac_of_dvd hy hdy
  have hfz := frac_of_dvd hz hdz
  rw [hfx, hfy, hfz]
  exact ⟨⟨rfl, rfl, rfl⟩, ⟨fade_zero, fade_zero, fade_zero⟩, isZero_grad_zero _,
    isZero_evaluate_of_dvd d perm hx hy hz hdx hdy hdz⟩

/-- Settles O35: the origin is an integer point. -/
theorem originGivesTheNearCornersGradient : Obligations.OriginGivesTheNearCornersGradient := by
  intro d perm
  have hint : (2 ^ 149 : Int) ∣ scaled 0x00000000#32 := dvd_zero _
  exact ⟨isZero_grad_zero _, isZero_evaluate_of_dvd d perm rfl rfl rfl hint hint hint⟩

end Sys2Proof.Proofs
end

section
/-! PROOFS. PROCESS (spec/42_process.md R140 to R147): no sample of a legal PROCESS reads a cell that a
sample writes, so a run of samples writes the noise of the inputs as they were at its start, in any order. -/

namespace Sys2Proof.Proofs

open Sys2Proof.Machine

/-! Cells that are apart (R45, R47). -/

/-- A cell is its four bytes. -/
theorem readCell_congr {m m' : Memory} {c : Nat} (h : ∀ a, a / 4 = c → readByte m a = readByte m' a) :
    readCell m c = readCell m' c := by
  unfold readCell
  rw [h (4 * c + 3) (by omega), h (4 * c + 2) (by omega), h (4 * c + 1) (by omega), h (4 * c) (by omega)]

/-- Writes to two different cells may change places. -/
theorem writeCell_comm {m : Memory} (hm : m.wf) {a b : Nat} (hab : a ≠ b) (v w : Word) :
    writeCell (writeCell m a v) b w = writeCell (writeCell m b w) a v := by
  have ha := writeCell_wf hm a v
  have hb := writeCell_wf hm b w
  refine memory_ext (writeCell_wf ha b w) (writeCell_wf hb a v) fun c => ?_
  rw [readByte_writeCell ha, readByte_writeCell hm, readByte_writeCell hb, readByte_writeCell hm]
  by_cases hc : c / 4 = b
  · rw [if_pos hc, if_neg (by omega), if_pos hc]
  · rw [if_neg hc, if_neg hc]

theorem elementCell_inj {d : Descriptor} {j k : Nat} : elementCell d j = elementCell d k ↔ j = k := by
  unfold elementCell
  omega

/-- No accessed cell of an input is an accessed cell of the output (R141). -/
theorem elementCell_ne_of_legal {cfg : Config} {x y z o d : Descriptor} {n : Word} {j k : Nat}
    (h : ProcessLegal cfg x y z o n) (hd : d ∈ [x, y, z]) (hj : j < n.toNat) (hk : k < n.toNat) :
    elementCell d j ≠ elementCell o k := by
  obtain ⟨-, hapart⟩ := h
  have := hapart (Nat.zero_lt_of_lt hk) d hd
  unfold elementCell
  omega

/-! What a run of samples leaves alone (R144). -/

/-- A write to a cell that no input of the sample lies on does not change the sample. -/
theorem sampleOf_writeCell {s : State} (hw : s.mem.wf) {x y z : Descriptor} {k c : Nat}
    (h : ∀ d ∈ [x, y, z], elementCell d k ≠ c) (v : Word) :
    sampleOf { s with mem := writeCell s.mem c v } x y z k = sampleOf s x y z k := by
  have hread : ∀ d ∈ [x, y, z], readCell (writeCell s.mem c v) (elementCell d k) = readCell s.mem (elementCell d k) :=
    fun d hd => by rw [readCell_writeCell hw, if_neg (h d hd).symm]
  unfold sampleOf
  dsimp only
  rw [hread x (by simp), hread y (by simp), hread z (by simp)]

theorem readByte_processSamples_of_ne {x y z o : Descriptor} {ks : List Nat} {s t : State}
    (h : processSamples x y z o ks s = .next t) (hw : s.mem.wf) {a : Nat} (ha : ∀ k ∈ ks, a / 4 ≠ elementCell o k) :
    readByte t.mem a = readByte s.mem a := by
  induction ks generalizing s with
  | nil => cases h; rfl
  | cons k ks ih =>
    obtain ⟨u, hu, hrest⟩ := andThen_eq_next.1 h
    obtain ⟨-, rfl⟩ := processSample_eq_next.1 hu
    obtain ⟨hk, hks⟩ := List.forall_mem_cons.1 ha
    rw [ih hrest (writeCell_wf hw _ _) hks, readByte_writeCell hw, if_neg hk]

/-- The samples of a legal PROCESS that completes are the noise of the inputs at its start (R142, R143). -/
theorem readCell_processSamples {x y z o : Descriptor} {n : Word} {ks : List Nat} {s t : State}
    (h : processSamples x y z o ks s = .next t) (hw : s.mem.wf) (hlegal : ProcessLegal s.cfg x y z o n)
    (hks : ∀ k ∈ ks, k < n.toNat) {k : Nat} (hk : k ∈ ks) : readCell t.mem (elementCell o k) = sampleOf s x y z k := by
  induction ks generalizing s with
  | nil => exact absurd hk List.not_mem_nil
  | cons j ks ih =>
    obtain ⟨u, hu, hrest⟩ := andThen_eq_next.1 h
    obtain ⟨-, rfl⟩ := processSample_eq_next.1 hu
    have hwu := writeCell_wf hw (elementCell o j) (sampleOf s x y z j)
    obtain ⟨hj, hks⟩ := List.forall_mem_cons.1 hks
    by_cases hlater : k ∈ ks
    · rw [ih hrest hwu hlegal hks hlater,
        sampleOf_writeCell hw fun d hd => elementCell_ne_of_legal hlegal hd (hks k hlater) hj]
    · obtain rfl : k = j := (List.mem_cons.1 hk).resolve_right hlater
      have hkept : readCell t.mem (elementCell o k) =
          readCell (writeCell s.mem (elementCell o k) (sampleOf s x y z k)) (elementCell o k) :=
        readCell_congr fun a ha => readByte_processSamples_of_ne hrest hwu fun i hi heq =>
          hlater (elementCell_inj.1 (ha.symm.trans heq) ▸ hi)
      rw [hkept, readCell_writeCell hw, if_pos rfl]

/-! A run of samples ends (R142, R159). -/

/-- On cells that exist and are backed a run of samples completes. -/
theorem processSamples_completes {x y z o : Descriptor} {ks : List Nat} {s : State}
    (hcells : ∀ k ∈ ks, ∀ d ∈ [x, y, z, o],
      elementCell d k < 2 ^ s.cfg.aw ∧ cellBacked s.cfg (elementCell d k) = true) :
    ∃ t, processSamples x y z o ks s = .next t := by
  have hcases : CompletesOrStopsIn s.cfg (fun a => a < 2 ^ s.cfg.aw ∧ cellBacked s.cfg a = true)
      (processSamples x y z o ks s) := processSamples_completesOrStopsIn s hcells
  rcases hcases with hdone | ⟨a, ⟨hspace, hb⟩, hstop⟩
  · exact hdone
  · obtain ⟨-, hunbacked⟩ := refused_of_stopsAt hstop hspace
    exact absurd hb (by simp [hunbacked])

theorem cells_of_legal_backed {cfg : Config} {x y z o : Descriptor} {n : Word} {k : Nat}
    (hlegal : ProcessLegal cfg x y z o n) (hbacked : AccessesBacked cfg x y z o n) (hk : k < n.toNat) :
    ∀ d ∈ [x, y, z, o], elementCell d k < 2 ^ cfg.aw ∧ cellBacked cfg (elementCell d k) = true :=
  fun d hd => ⟨elementCell_lt_of_legal hlegal hd hk, hbacked d hd k hk⟩

/-- The state after a PROCESS on `s` whose samples have left the memory `m` (R142). -/
def processDone (x y z o : Descriptor) (n : Word) (s : State) (m : Memory) : State :=
  pushRsp (responseWord 0x02#8 0#4) (accessedRanges x y z o n) { s with mem := m, draws := s.draws + n.toNat }

theorem exec_process_of_samples {s : State} {m : Memory} {x y z o : Descriptor} {n : Word}
    (hlegal : ProcessLegal s.cfg x y z o n)
    (hm : processSamples x y z o (List.range n.toNat) s = .next { s with mem := m }) :
    exec (.process x y z o n) s = .next (processDone x y z o n s m) := by
  rw [exec_process_of_legal hlegal, processRun, hm, andThen_next, processDone]

/-- A legal PROCESS on backed cells completes (R142). -/
theorem exec_process_completes {s : State} {x y z o : Descriptor} {n : Word} (hlegal : ProcessLegal s.cfg x y z o n)
    (hbacked : AccessesBacked s.cfg x y z o n) :
    ∃ m, processSamples x y z o (List.range n.toNat) s = .next { s with mem := m } ∧
      exec (.process x y z o n) s = .next (processDone x y z o n s m) := by
  obtain ⟨u, hu⟩ := processSamples_completes (s := s) fun k hk =>
    cells_of_legal_backed hlegal hbacked (List.mem_range.1 hk)
  rw [processSamples_eq_next hu] at hu
  exact ⟨u.mem, hu, exec_process_of_samples hlegal hu⟩

/-- A PROCESS that completes answers the response 0x00000002 (R69, R142). -/
theorem responded_processDone (x y z o : Descriptor) (n : Word) (s : State) (m : Memory) :
    Responded s (processDone x y z o n s m) 0x00000002#32 := by
  rw [← responseWord_process]
  exact responded_pushRsp (t := { s with mem := m, draws := s.draws + n.toNat }) rfl rfl rfl _ _

@[simp] theorem processDone_mem (x y z o : Descriptor) (n : Word) (s : State) (m : Memory) :
    (processDone x y z o n s m).mem = m := by simp [processDone]

@[simp] theorem processDone_draws (x y z o : Descriptor) (n : Word) (s : State) (m : Memory) :
    (processDone x y z o n s m).draws = s.draws + n.toNat := by simp [processDone]

/-- Beside the memory, the draws and the queue a PROCESS that completes changes nothing, but opens its window (R144). -/
theorem processDone_frame (x y z o : Descriptor) (n : Word) (s : State) (m : Memory) :
    let t := processDone x y z o n s m
    t.perm = s.perm ∧ t.windows = s.windows ++ [accessedRanges x y z o n] ∧ t.faulted = s.faulted ∧
      t.cause = s.cause ∧ t.finfo = s.finfo ∧ t.cmdbuf = s.cmdbuf ∧ t.host = s.host ∧ t.cfg = s.cfg := by
  simp [processDone]

/-- Settles O39: the run of samples completes, writes the noise of the inputs, and changes no other byte. -/
theorem processWritesTheNoiseOfItsInputs : Obligations.ProcessWritesTheNoiseOfItsInputs := by
  intro s x y z o n hw hlegal hbacked
  obtain ⟨m, hm, hexec⟩ := exec_process_completes hlegal hbacked
  have hnoise : ∀ k < n.toNat, readCell m (elementCell o k) = sampleOf s x y z k := fun k hk =>
    readCell_processSamples hm hw hlegal (fun _ => List.mem_range.1) (List.mem_range.2 hk)
  have hrest : ∀ a, (∀ k < n.toNat, a / 4 ≠ elementCell o k) → readByte m a = readByte s.mem a := fun a ha =>
    readByte_processSamples_of_ne hm hw fun k hk => ha k (List.mem_range.1 hk)
  obtain ⟨hposted, -⟩ := responded_processDone x y z o n s m
  obtain ⟨hperm, hframe⟩ := processDone_frame x y z o n s m
  rw [← processDone_mem x y z o n s m] at hnoise hrest
  exact ⟨_, hexec, hnoise, hrest, hperm, hposted, hframe⟩

/-! The samples in another order (R145). -/

/-- A sample of a legal PROCESS on backed cells is one write (R142). -/
theorem processSample_of_legal {s : State} {x y z o : Descriptor} {n : Word} {k : Nat}
    (hlegal : ProcessLegal s.cfg x y z o n) (hbacked : AccessesBacked s.cfg x y z o n) (hk : k < n.toNat) :
    processSample x y z o k s =
      .next { s with mem := writeCell s.mem (elementCell o k) (sampleOf s x y z k) } :=
  processSample_eq_next.2 ⟨cells_of_legal_backed hlegal hbacked hk, rfl⟩

/-- Two samples of a legal PROCESS may change places: they write different cells, and neither reads what the other
writes (R49). -/
theorem processSample_comm {s : State} {x y z o : Descriptor} {n : Word} {j k : Nat} (hw : s.mem.wf)
    (hlegal : ProcessLegal s.cfg x y z o n) (hbacked : AccessesBacked s.cfg x y z o n) (hj : j < n.toNat)
    (hk : k < n.toNat) :
    andThen (processSample x y z o j s) (processSample x y z o k) =
      andThen (processSample x y z o k s) (processSample x y z o j) := by
  by_cases hjk : j = k
  · rw [hjk]
  · have hread : ∀ {i l : Nat}, i < n.toNat → l < n.toNat → ∀ d ∈ [x, y, z], elementCell d i ≠ elementCell o l :=
      fun hi hl _ hd => elementCell_ne_of_legal hlegal hd hi hl
    rw [processSample_of_legal hlegal hbacked hj, processSample_of_legal hlegal hbacked hk, andThen_next, andThen_next,
      processSample_of_legal (s := { s with mem := writeCell s.mem (elementCell o j) _ }) hlegal hbacked hk,
      processSample_of_legal (s := { s with mem := writeCell s.mem (elementCell o k) _ }) hlegal hbacked hj,
      sampleOf_writeCell hw (hread hk hj), sampleOf_writeCell hw (hread hj hk),
      writeCell_comm hw (mt elementCell_inj.1 hjk)]

theorem processSamples_perm {x y z o : Descriptor} {n : Word} {ks ls : List Nat} (hperm : ks.Perm ls) {s : State}
    (hw : s.mem.wf) (hlegal : ProcessLegal s.cfg x y z o n) (hbacked : AccessesBacked s.cfg x y z o n)
    (hks : ∀ k ∈ ks, k < n.toNat) : processSamples x y z o ks s = processSamples x y z o ls s := by
  induction hperm generalizing s with
  | nil => rfl
  | cons k _ ih =>
    obtain ⟨-, hrest⟩ := List.forall_mem_cons.1 hks
    refine andThen_congr fun u hu => ?_
    obtain ⟨-, rfl⟩ := processSample_eq_next.1 hu
    exact ih (writeCell_wf hw _ _) hlegal hbacked hrest
  | swap j k ks =>
    have hswap := processSample_comm hw hlegal hbacked (hks k (by simp)) (hks j (by simp))
    simp only [processSamples, ← andThen_assoc, hswap]
  | trans hfirst _ ih₁ ih₂ =>
    exact (ih₁ hw hlegal hbacked hks).trans (ih₂ hw hlegal hbacked fun k hk => hks k (hfirst.mem_iff.2 hk))

/-- Settles O42, by exchanging neighbours. -/
theorem samplesMayRunInAnyOrder : Obligations.SamplesMayRunInAnyOrder :=
  fun _ _ _ _ _ _ _ hw hlegal hbacked hperm =>
    processSamples_perm hperm hw hlegal hbacked fun _ hk => List.mem_range.1 (hperm.mem_iff.1 hk)

/-! What a PROCESS that answers has left alone (R144, R147). -/

/-- Settles O43: a PROCESS that completes leaves the status, so this one has done fault entry. -/
theorem faultingProcessHasDoneNothingElse : Obligations.FaultingProcessHasDoneNothingElse := by
  intro s t x y z o n hrun h hfault
  rcases execProcess_eq_next h with ⟨c, info, hcheck, rfl⟩ | ⟨-, u, hu, rfl⟩
  · have hcause : causeCode c = 2#4 ∨ causeCode c = 3#4 ∨ causeCode c = 4#4 := by
      obtain ⟨b, -, ⟨rfl, -⟩ | ⟨rfl, -⟩ | ⟨rfl, -⟩⟩ := checkProcess_eq_some hcheck
      · exact .inl rfl
      · exact .inr (.inl rfl)
      · exact .inr (.inr rfl)
    simpa using hcause
  · have hstatus : u.faulted = s.faulted := by rw [processSamples_eq_next hu]
    simp [hstatus, hrun] at hfault

/-- Settles O44: fault entry leaves the memory, and a run of samples changes its output cells alone. -/
theorem processTouchesOnlyItsOutputCells : Obligations.ProcessTouchesOnlyItsOutputCells := by
  intro s t x y z o n hw h
  obtain ⟨hhost, hcfg⟩ := exec_keeps_host_cfg h
  rcases execProcess_eq_next h with ⟨c, info, -, rfl⟩ | ⟨-, u, hu, rfl⟩
  · exact ⟨raiseFault_perm .., hhost, hcfg, fun a _ => by rw [raiseFault_mem]⟩
  · refine ⟨?_, hhost, hcfg, fun a ha => ?_⟩
    · rw [pushRsp_perm, processSamples_eq_next hu]
    · rw [pushRsp_mem]
      exact readByte_processSamples_of_ne hu hw fun k hk => ha k (List.mem_range.1 hk)

/-! Every command ends (R142, R159). -/

/-- PROCESS does fault entry unless its preconditions hold (R141, R147). -/
theorem exec_process_cases (x y z o : Descriptor) (n : Word) (s : State) :
    (∃ c info, exec (.process x y z o n) s = .next (raiseFault c info 0x02#8 s)) ∨ ProcessLegal s.cfg x y z o n := by
  cases hc : checkProcess s.cfg x y z o n with
  | some fault => exact .inl ⟨fault.1, fault.2, by change execProcess x y z o n s = _; rw [execProcess, hc]⟩
  | none => exact .inr (checkProcess_eq_none.1 hc)

/-- Settles O45: a legal PROCESS that stops does so at a cell of its own, which exists, so it is refused. -/
theorem noCommandLeavesTheAddressSpace : Obligations.NoCommandLeavesTheAddressSpace := by
  intro i s r
  cases i with
  | construct => exact nofun
  | constructS seed => exact nofun
  | process x y z o n =>
    rcases exec_process_cases x y z o n s with ⟨c, info, he⟩ | hlegal
    · rw [he]; exact nofun
    · have hsamples : CompletesOrStopsIn s.cfg (· < 2 ^ s.cfg.aw) (exec (.process x y z o n) s) := by
        rw [exec_process_of_legal hlegal]
        exact andThen_completesOrStopsIn
          (processSamples_completesOrStopsIn s fun k hk d hd => elementCell_lt_of_legal hlegal hd (List.mem_range.1 hk))
          fun u _ => .inl ⟨_, rfl⟩
      rcases hsamples with ⟨t, ht⟩ | ⟨a, ha, hstop⟩
      · rw [ht]; exact nofun
      · rw [(refused_of_stopsAt hstop ha).1]; exact nofun

theorem exec_completes_of_backed {s : State} (hb : ∀ a, cellBacked s.cfg a = true) (i : Instr) :
    ∃ t, exec i s = .next t := by
  cases i with
  | construct => exact ⟨_, rfl⟩
  | constructS seed => exact ⟨_, rfl⟩
  | process x y z o n =>
    rcases exec_process_cases x y z o n s with ⟨c, info, he⟩ | hlegal
    · exact ⟨_, he⟩
    · obtain ⟨u, -, he⟩ := exec_process_completes hlegal fun _ _ _ _ => hb _
      exact ⟨_, he⟩

/-- Settles O46: the command completes, and it has responded. -/
theorem everyCommandEndsOnBackedMemory : Obligations.EveryCommandEndsOnBackedMemory := by
  intro i s hb
  obtain ⟨t, ht⟩ := exec_completes_of_backed hb i
  obtain ⟨w, hposted, hwaits⟩ := exec_responded ht
  refine ⟨t, ht, fun hroom => ?_, fun hfull => ?_⟩
  · obtain ⟨hqueue, hhold⟩ := hposted hroom
    exact ⟨hhold, w, hqueue⟩
  · obtain ⟨hqueue, hhold⟩ := hwaits hfull
    exact ⟨hqueue, by simp [hhold]⟩

/-- With a count of zero the first check is the only one (R146). -/
theorem processLegal_zero {cfg : Config} {x y z o : Descriptor}
    (h : ∀ d ∈ [x, y, z, o], d.base.toNat + d.len.toNat ≤ 2 ^ cfg.aw) : ProcessLegal cfg x y z o 0#32 :=
  ⟨fun d hd => ⟨h d hd, Nat.zero_le _⟩, fun hpos => absurd hpos (Nat.lt_irrefl 0)⟩

/-- Settles O40: the run of no samples leaves the state, and no cell is in the ranges of no elements. -/
theorem processOfZeroSamplesAccessesNothing : Obligations.ProcessOfZeroSamplesAccessesNothing := by
  intro s x y z o hspace
  have hexec : exec (.process x y z o 0#32) s = .next (processDone x y z o 0#32 s s.mem) :=
    exec_process_of_samples (processLegal_zero hspace) rfl
  have hempty : ∀ r ∈ accessedRanges x y z o 0#32, ∀ cell, ¬(r.first ≤ cell ∧ cell < r.past) := by
    intro r hr cell hcell
    obtain ⟨d, -, k, hk, -⟩ := (accessedRanges_hold_iff x y z o 0#32 cell).1 ⟨r, hr, hcell⟩
    exact Nat.not_lt_zero k hk
  obtain ⟨hperm, hwindows, hfaulted, hcause, hfinfo, hcmdbuf, hhost, hcfg⟩ := processDone_frame x y z o 0#32 s s.mem
  exact ⟨_, hexec, processDone_mem .., hperm, hfaulted, hcause, hfinfo, hcmdbuf,
    responded_processDone x y z o 0#32 s s.mem, ⟨_, hwindows, hempty⟩, processDone_draws .., hhost, hcfg⟩

end Sys2Proof.Proofs
end

section
/-! PROOFS. What the binary32 operations do outside rounding (spec/43_arithmetic.md R160, R168 to R170): the generator's
recurrence, negation, the NaN of a draw, and how infinities behave. -/

namespace Sys2Proof.Proofs

open Sys2Proof.Machine

/-- Settles O11: the word product and sum are reduced at each operation, the exact ones once. -/
theorem lcgNextIsTheRecurrence : Obligations.LcgNextIsTheRecurrence := by
  intro lcg
  rw [lcgNext, BitVec.toNat_add, BitVec.toNat_mul, Nat.mod_add_mod]
  rfl

/-! Negation (R168). -/

theorem expField_eq_lowBits (a : Word) : expField a = lowBits a / 2 ^ 23 := by
  unfold expField lowBits
  omega

theorem fracField_eq_lowBits (a : Word) : fracField a = lowBits a % 2 ^ 23 := by
  unfold fracField lowBits
  omega

/-- Settles O20: the exponent and the fraction are the low 31 bits. -/
theorem negationFlipsTheSignBitOnly : Obligations.NegationFlipsTheSignBitOnly := by
  intro a
  refine ⟨signBit_fneg a, ?_, ?_⟩
  · rw [expField_eq_lowBits, expField_eq_lowBits, lowBits_fneg]
  · rw [fracField_eq_lowBits, fracField_eq_lowBits, lowBits_fneg]

theorem fneg_eq_withSign (a : Word) : fneg a = withSign (!signBit a) (lowBits a) := by
  rw [← withSign_lowBits (fneg a), signBit_fneg, lowBits_fneg]

theorem fneg_fneg (a : Word) : fneg (fneg a) = a := by
  rw [fneg_eq_withSign, signBit_fneg, Bool.not_not, lowBits_fneg, withSign_lowBits]

/-! The NaN of a draw (R170). -/

/-- The exponent field of a NaN has all the bits that a draw is given. -/
theorem or_exponentMask_eq_self {p : Word} (h : expField p = 255) : p ||| 0x7F800000#32 = p := by
  refine word_ext ?_ ?_ ?_
  · have hmsb : ∀ b : Word, signBit b = b.msb := fun b => (BitVec.msb_eq_decide b).symm
    rw [hmsb, hmsb, BitVec.msb_or, show (0x7F800000#32).msb = false by decide, Bool.or_false]
  · rw [h, expField_eq_extractLsb', BitVec.extractLsb'_or,
      show (0x7F800000#32).extractLsb' 23 8 = BitVec.allOnes 8 by decide, BitVec.or_allOnes]
    rfl
  · rw [fracField_eq_setWidth, BitVec.setWidth_or, show (0x7F800000#32).setWidth 23 = 0#23 by decide, BitVec.or_zero,
      ← fracField_eq_setWidth]

/-- Settles O30: a NaN is the draw that makes it. -/
theorem nanDrawIsAnyNaNAndNothingElse : Obligations.NanDrawIsAnyNaNAndNothingElse := by
  refine ⟨fun draw => ?_, fun p hexp hfrac => ⟨p, ?_⟩⟩
  · simpa [isNaN] using isNaN_nanOf draw
  · rw [nanOf, if_neg hfrac, or_exponentMask_eq_self hexp]

/-! Infinities (R170). -/

/-- There is one infinity of each sign. -/
theorem eq_or_eq_fneg_of_isInf {a b : Word} (ha : isInf a = true) (hb : isInf b = true) : b = a ∨ b = fneg a := by
  rw [isInf_iff_lowBits] at ha hb
  rw [fneg_eq_withSign, ← withSign_lowBits b, hb, ← ha]
  rcases Bool.eq_or_eq_not (signBit b) (signBit a) with h | h
  · rw [h, withSign_lowBits]; exact .inl rfl
  · rw [h]; exact .inr rfl

theorem fadd_of_isInf_of_isFinite {a b : Word} (ha : isInf a = true) (hb : isFinite b = true) :
    fadd a b = a ∧ fadd b a = a := by
  obtain ⟨hib, hnb⟩ := (isFinite_iff b).1 hb
  simp [fadd, ha, isNaN_of_isInf ha, hib, hnb]

theorem fsub_of_isInf_of_isFinite {a b : Word} (ha : isInf a = true) (hb : isFinite b = true) :
    fsub a b = a ∧ fsub b a = fneg a :=
  ⟨(fadd_of_isInf_of_isFinite ha ((isFinite_fneg b).trans hb)).1,
    (fadd_of_isInf_of_isFinite ((isInf_fneg a).trans ha) hb).2⟩

theorem fadd_self_of_isInf {a : Word} (ha : isInf a = true) : fadd a a = a := by
  simp [fadd, ha, isNaN_of_isInf ha]

theorem isNaN_fmul_of_isZero_of_isInf {a b : Word} (ha : isZero a = true) (hb : isInf b = true) :
    isNaN (fmul a b) = true ∧ isNaN (fmul b a) = true := by
  obtain ⟨-, hna⟩ := (isFinite_iff a).1 (isFinite_of_isZero ha)
  have hab : fmul a b = opNaN .mul a b := by simp [fmul, ha, hb, hna, isNaN_of_isInf hb]
  have hba : fmul b a = opNaN .mul b a := by simp [fmul, ha, hb, hna, isNaN_of_isInf hb]
  rw [hab, hba]
  exact ⟨isNaN_nanOf _, isNaN_nanOf _⟩

theorem isZero_of_isInf {a : Word} (h : isInf a = true) : isZero a = false := by
  rw [isInf_iff_lowBits] at h
  rw [← Bool.not_eq_true, isZero_iff_lowBits]
  omega

theorem isInf_withSign_inf (neg : Bool) : isInf (withSign neg 0x7F800000) = true :=
  (isInf_iff_lowBits _).2 (lowBits_withSign neg (by decide))

/-- An infinity times a number that is not a zero is the infinity of the exclusive-or of the signs. -/
theorem fmul_of_isInf {a b : Word} (ha : isInf a = true) (hb : isNaN b = false) (hz : isZero b = false) :
    fmul a b = withSign (signBit a != signBit b) 0x7F800000 ∧
      fmul b a = withSign (signBit a != signBit b) 0x7F800000 := by
  have hna := isNaN_of_isInf ha
  have hza := isZero_of_isInf ha
  constructor
  · simp [fmul, ha, hb, hz, hna, hza]
  · simp [fmul, ha, hb, hz, hna, hza, bne_comm (a := signBit b)]

/-- Settles O18. -/
theorem naNAndInfinityBehaveAsTheStandardSays : Obligations.NaNAndInfinityBehaveAsTheStandardSays := by
  refine ⟨fun a b h => ⟨isNaN_fadd h, isNaN_fsub h, isNaN_fmul h⟩, isNaN_fsub_self_of_isInf (a := 0x7F800000#32) rfl,
    isNaN_fsub_self_of_isInf rfl, isNaN_fsub_self_of_isInf rfl, fun a b => isNaN_fmul_of_isZero_of_isInf,
    fun a b ha hb => ?_, fun a ha => ?_, fun a b ha hb hz => ?_⟩
  · obtain ⟨hab, hba⟩ := fadd_of_isInf_of_isFinite ha hb
    exact ⟨hab, hba, fsub_of_isInf_of_isFinite ha hb⟩
  · refine ⟨fadd_self_of_isInf ha, ?_, isNaN_fsub_self_of_isInf ha, fun b => eq_or_eq_fneg_of_isInf ha⟩
    rw [fsub, fneg_fneg, fadd_self_of_isInf ha]
  · obtain ⟨hab, hba⟩ := fmul_of_isInf ha hb hz
    rw [hab, hba]
    exact ⟨isInf_withSign_inf _, isInf_withSign_inf _, signBit_withSign _ (by decide), signBit_withSign _ (by decide)⟩

end Sys2Proof.Proofs
end

section
/-! PROOFS. Rounding (spec/43_arithmetic.md R166, R171, R172): a finite sum or product is its exact value, in units of
`2^-149` or `2^-298`, rounded once; what that gives is shown for the exact value alone, and holds of both operations. -/

namespace Sys2Proof.Proofs

open Sys2Proof.Machine

set_option exponentiation.threshold 300

/-- The pattern `r` is the exact value `v * 2^-s`, in units of `2^-149`, packed with a sign that agrees with it. -/
def Rounds (s : Nat) (v : Int) (r : Word) : Prop :=
  ∃ neg : Bool, (v < 0 → neg = true) ∧ (0 < v → neg = false) ∧ r = withSign neg (packMagnitude v.natAbs s)

theorem fadd_rounds {a b : Word} (ha : isFinite a = true) (hb : isFinite b = true) :
    Rounds 0 (scaled a + scaled b) (fadd a b) := by
  rw [fadd_of_isFinite ha hb]
  split
  case isTrue hzero =>
    rw [hzero]
    exact ⟨signBit a && signBit b, nofun, nofun, rfl⟩
  case isFalse => exact ⟨_, decide_eq_true, fun h => decide_eq_false h.not_gt, rfl⟩

theorem fmul_of_isFinite {a b : Word} (ha : isFinite a = true) (hb : isFinite b = true) :
    fmul a b = withSign (signBit a != signBit b) (packMagnitude (magnitude a * magnitude b) 149) := by
  obtain ⟨hia, hna⟩ := (isFinite_iff a).1 ha
  obtain ⟨hib, hnb⟩ := (isFinite_iff b).1 hb
  simp [fmul, hia, hna, hib, hnb]

/-- The sign of a finite product, of a zero too, is the exclusive-or of the signs (R172). -/
theorem signBit_fmul {a b : Word} (ha : isFinite a = true) (hb : isFinite b = true) :
    signBit (fmul a b) = (signBit a != signBit b) := by
  rw [fmul_of_isFinite ha hb, signBit_withSign _ (packMagnitude_lt _ _)]

theorem scaled_mul_scaled (a b : Word) : scaled a * scaled b =
    if signBit a != signBit b then -((magnitude a * magnitude b : Nat) : Int)
    else (magnitude a * magnitude b : Nat) := by
  unfold scaled
  cases signBit a <;> cases signBit b <;> simp

theorem fmul_rounds {a b : Word} (ha : isFinite a = true) (hb : isFinite b = true) :
    Rounds 149 (scaled a * scaled b) (fmul a b) := by
  refine ⟨signBit a != signBit b, ?_, ?_, ?_⟩
  · intro h
    by_contra hsign
    rw [scaled_mul_scaled, if_neg hsign] at h
    omega
  · intro h
    by_contra hsign
    rw [scaled_mul_scaled, if_pos (Bool.not_eq_false _ ▸ hsign)] at h
    omega
  · rw [fmul_of_isFinite ha hb, Int.natAbs_mul, scaled_natAbs, scaled_natAbs]

section
variable {s : Nat} {v : Int} {r : Word}

theorem isFinite_of_rounds (h : Rounds s v r) (hv : v.natAbs < (2 ^ 277 - 2 ^ 252) * 2 ^ s) : isFinite r = true := by
  obtain ⟨neg, -, -, rfl⟩ := h
  have hle := packMagnitude_le v.natAbs s
  have hne := (packMagnitude_eq_inf_iff v.natAbs s).not.2 hv.not_ge
  rw [isFinite_iff_lowBits, lowBits_withSign neg (packMagnitude_lt _ _)]
  omega

/-- From halfway between the largest finite number and `2^128` on the result is the infinity of the value's sign. -/
theorem isInf_of_rounds (h : Rounds s v r) (hv : (2 ^ 277 - 2 ^ 252) * 2 ^ s ≤ v.natAbs) :
    isInf r = true ∧ signBit r = decide (v < 0) := by
  obtain ⟨neg, hneg, hpos, rfl⟩ := h
  have hlt := packMagnitude_lt v.natAbs s
  rw [isInf_iff_lowBits, lowBits_withSign neg hlt, signBit_withSign neg hlt]
  refine ⟨(packMagnitude_eq_inf_iff _ _).2 hv, ?_⟩
  have hne : v ≠ 0 := by
    rintro rfl
    have := Nat.two_pow_pos s
    simp only [Int.natAbs_zero] at hv
    omega
  rcases lt_or_gt_of_ne hne with h | h
  · rw [hneg h, decide_eq_true h]
  · rw [hpos h, decide_eq_false h.not_gt]

/-- The distance of two numbers of the same sign is that of their magnitudes. -/
theorem natAbs_signed_sub {neg : Bool} (hneg : v < 0 → neg = true) (hpos : 0 < v → neg = false) (m : Nat) :
    ((if neg then -(m : Int) else m) - v).natAbs = ((m : Int) - v.natAbs).natAbs := by
  cases neg
  · have := mt hneg Bool.false_ne_true
    rw [if_neg Bool.false_ne_true]
    omega
  · have : ¬0 < v := fun h => Bool.noConfusion (hpos h)
    rw [if_pos rfl]
    omega

/-- No two numbers are nearer than their magnitudes. -/
theorem le_natAbs_signed_sub (neg : Bool) (m : Nat) (v : Int) :
    ((m : Int) - v.natAbs).natAbs ≤ ((if neg then -(m : Int) else m) - v).natAbs := by
  split <;> omega

theorem signed_mul (neg : Bool) (m k : Nat) :
    (if neg then -(m : Int) else m) * k = if neg then -((m * k : Nat) : Int) else (m * k : Nat) := by
  cases neg <;> simp

/-- Below the overflow bound the packed bits are those that there would be with no largest exponent. -/
theorem lowBits_of_rounds (h : Rounds s v r) (hv : v.natAbs < (2 ^ 277 - 2 ^ 252) * 2 ^ s) :
    lowBits r = rawPack v.natAbs s := by
  obtain ⟨neg, -, -, rfl⟩ := h
  have hne := (packMagnitude_eq_inf_iff v.natAbs s).not.2 hv.not_ge
  rw [lowBits_withSign neg (packMagnitude_lt _ _)]
  rw [packMagnitude_eq] at hne ⊢
  omega

theorem toNat_mod_two_eq_lowBits_mod_two (a : Word) : a.toNat % 2 = lowBits a % 2 := by
  unfold lowBits
  omega

/-- The distance from the exact value is that of the magnitudes, the signs agreeing. -/
theorem natAbs_sub_of_rounds (h : Rounds s v r) :
    (scaled r * (2 ^ s : Nat) - v).natAbs = (((bitsMagnitude (lowBits r) * 2 ^ s : Nat) : Int) - v.natAbs).natAbs := by
  obtain ⟨neg, hneg, hpos, rfl⟩ := h
  have hlt := packMagnitude_lt v.natAbs s
  rw [scaled_withSign neg hlt, lowBits_withSign neg hlt, signed_mul, natAbs_signed_sub hneg hpos]

/-- No finite number is nearer to the exact value, and of two that are equally near the result is the even one. -/
theorem nearest_of_rounds (h : Rounds s v r) (hv : v.natAbs < (2 ^ 277 - 2 ^ 252) * 2 ^ s) (c : Word) :
    |scaled r * 2 ^ s - v| ≤ |scaled c * 2 ^ s - v| ∧
      (scaled c ≠ scaled r → |scaled r * 2 ^ s - v| = |scaled c * 2 ^ s - v| → r.toNat % 2 = 0) := by
  have hdist := natAbs_sub_of_rounds h
  have hdistc : (((bitsMagnitude (lowBits c) * 2 ^ s : Nat) : Int) - v.natAbs).natAbs ≤
      (scaled c * (2 ^ s : Nat) - v).natAbs := by
    rw [scaled_eq c, signed_mul]
    exact le_natAbs_signed_sub _ _ v
  have hnearest := rawPack_nearest v.natAbs s
  rw [← lowBits_of_rounds h hv, ← toNat_mod_two_eq_lowBits_mod_two, ← hdist] at hnearest
  obtain ⟨hnear, htie⟩ := hnearest (lowBits c)
  have hpow : (2 ^ s : Int) = (2 ^ s : Nat) := by simp
  rw [hpow, Int.abs_eq_natAbs, Int.abs_eq_natAbs, Int.ofNat_le, Int.natCast_inj]
  refine ⟨hnear.trans hdistc, fun hne heq => ?_⟩
  by_cases hsame : lowBits c = lowBits r
  · -- the same magnitude with the other sign is as near only if it is zero
    have hopp : scaled c = -scaled r := by
      refine (Int.natAbs_eq_natAbs_iff.1 ?_).resolve_left hne
      rw [scaled_natAbs, scaled_natAbs, magnitude_eq_bitsMagnitude, magnitude_eq_bitsMagnitude, hsame]
    have hzero := (hnearest 0).1
    rw [show bitsMagnitude 0 = 0 from rfl, Nat.zero_mul] at hzero
    rw [hopp, Int.neg_mul] at heq
    have hnull : scaled r * (2 ^ s : Nat) = 0 := by omega
    have hr0 := (Int.mul_eq_zero.1 hnull).resolve_right (by positivity)
    exact absurd (by rw [hopp, hr0]; rfl) hne
  · exact htie hsame (hnear.antisymm (heq ▸ hdistc))

end

/-- Settles O16: the exact sum is rounded once. -/
theorem additionRoundsToNearestEven : Obligations.AdditionRoundsToNearestEven := by
  intro a b ha hb v
  have hv : Rounds 0 v (fadd a b) := fadd_rounds ha hb
  rw [Int.abs_eq_natAbs v]
  refine ⟨fun h => ?_, fun h => isInf_of_rounds hv (by omega)⟩
  have hsmall : v.natAbs < (2 ^ 277 - 2 ^ 252) * 2 ^ 0 := by omega
  refine ⟨isFinite_of_rounds hv hsmall, fun c _ => ?_⟩
  have hnear := nearest_of_rounds hv hsmall c
  rwa [pow_zero, mul_one, mul_one] at hnear

/-- Settles O17: the exact product is rounded once. -/
theorem multiplicationRoundsToNearestEven : Obligations.MultiplicationRoundsToNearestEven := by
  intro a b ha hb p
  have hp : Rounds 149 p (fmul a b) := fmul_rounds ha hb
  rw [Int.abs_eq_natAbs p]
  refine ⟨signBit_fmul ha hb, fun h => ?_, fun h => (isInf_of_rounds hp (by omega)).1⟩
  have hsmall : p.natAbs < (2 ^ 277 - 2 ^ 252) * 2 ^ 149 := by omega
  exact ⟨isFinite_of_rounds hp hsmall, fun c _ => nearest_of_rounds hp hsmall c⟩

end Sys2Proof.Proofs
end

section
/-! PROOFS. Signed zeros and the floor (spec/43_arithmetic.md R169, R172). -/

namespace Sys2Proof.Proofs

open Sys2Proof.Machine

set_option exponentiation.threshold 300

/-! The sign of a zero result (R172). -/

theorem fsub_self_of_isFinite {a : Word} (ha : isFinite a = true) : fsub a a = 0x00000000#32 := by
  have hsum : scaled a + scaled (fneg a) = 0 := by rw [scaled_fneg, Int.add_right_neg]
  rw [fsub, fadd_of_isFinite ha ((isFinite_fneg a).trans ha), if_pos hsum, signBit_fneg, Bool.and_not_self]
  rfl

/-- A number that cancels another has the other sign, so it is that number's negation. -/
theorem fadd_of_cancel {a b : Word} (ha : isFinite a = true) (hz : isZero a = false)
    (h : scaled a + scaled b = 0) : fadd a b = 0x00000000#32 := by
  have hne : scaled b ≠ 0 := fun hb => Bool.eq_false_iff.1 hz ((isZero_iff_scaled a).2 (by omega))
  have hneg : b = fneg a := eq_of_scaled_eq (by rw [scaled_fneg]; omega) hne
  rw [hneg]
  exact fsub_self_of_isFinite ha

theorem fadd_zero_eq_self {a b : Word} (hz : isZero a = false) (hn : isNaN a = false) (hb : isZero b = true) :
    fadd a b = a := by
  cases hinf : isInf a
  case true => exact (fadd_of_isInf_of_isFinite hinf (isFinite_of_isZero hb)).1
  case false =>
    obtain ⟨-, hval⟩ := fadd_of_isZero ((isFinite_iff a).2 ⟨hinf, hn⟩) hb
    refine eq_of_scaled_eq hval fun hzero => Bool.eq_false_iff.1 hz ((isZero_iff_scaled a).2 ?_)
    rw [← hval, hzero]

/-- Settles O19: the four sums of zeros by evaluation. -/
theorem signedZerosFollowTheRounding : Obligations.SignedZerosFollowTheRounding :=
  ⟨rfl, rfl, rfl, rfl, fun _ => fsub_self_of_isFinite, fun _ _ ha _ hz _ => fadd_of_cancel ha hz,
    fun _ _ ha hb _ => signBit_fmul ha hb, fun _ _ => fadd_zero_eq_self⟩

/-! The floor (R169). -/

theorem isNaN_ffloor {a : Word} (h : isNaN a = true) : isNaN (ffloor a) = true := by
  rw [ffloor, if_pos h]
  exact isNaN_nanOf _

/-- Settles O21, by the value of the floor. -/
theorem floorIsTheGreatestIntegerNotAbove : Obligations.FloorIsTheGreatestIntegerNotAbove := by
  refine ⟨fun a ha => ?_, rfl, rfl, ffloor_of_isInf rfl, ffloor_of_isInf rfl, fun a => isNaN_ffloor⟩
  have hval := scaled_ffloor ha
  have hfloor : floorInt a = scaled a / 2 ^ 149 := rfl
  refine ⟨isFinite_ffloor ha, hval ▸ Int.dvd_mul_left _ _, by omega, by omega, fun h => ?_, fun hpos hlt => ?_,
    fun hgt hneg => ?_⟩
  · rw [Int.abs_eq_natAbs] at h
    exact ffloor_of_dvd ha (two_pow_dvd_scaled (k := 149) (by omega))
  · rw [ffloor_of_isFinite ha, if_pos (by omega), signBit_eq_of_scaled_ne_zero hpos.ne', decide_eq_false hpos.not_gt]
    rfl
  · have hone : scaled 0xBF800000#32 = -(2 ^ 149) := by decide
    exact eq_of_scaled_eq (by omega) (by omega)

end Sys2Proof.Proofs
end

section
/-! PROOFS. No overflow for finite coordinates (spec/43_arithmetic.md R174): rounding does not pass a power of two, so
every operation of EVALUATE has a bound that is a power of two, far below the largest finite number. -/

namespace Sys2Proof.Proofs

open Sys2Proof.Machine

set_option exponentiation.threshold 300

/-- Rounding does not pass a binary32 magnitude. -/
theorem scaled_natAbs_le_of_rounds {s k : Nat} {v : Int} {r : Word} (h : Rounds s v r)
    (hv : v.natAbs ≤ bitsMagnitude k * 2 ^ s) : (scaled r).natAbs ≤ bitsMagnitude k := by
  obtain ⟨neg, -, -, rfl⟩ := h
  have hnear := (rawPack_nearest v.natAbs s k).1
  have hraw : bitsMagnitude (rawPack v.natAbs s) ≤ bitsMagnitude k :=
    Nat.le_of_mul_le_mul_right (show _ * 2 ^ s ≤ _ * 2 ^ s by omega) (Nat.two_pow_pos s)
  have hmin := bitsMagnitude_strictMono.monotone (Nat.min_le_left (rawPack v.natAbs s) 0x7F800000)
  rw [scaled_natAbs, magnitude_eq_bitsMagnitude, lowBits_withSign neg (packMagnitude_lt _ _)]
  exact hmin.trans hraw

theorem exists_bitsMagnitude_eq_two_pow (e : Nat) : ∃ k, bitsMagnitude k = 2 ^ (149 + e) := by
  refine ⟨(126 + e) * 2 ^ 23 + 2 ^ 23, ?_⟩
  rw [bitsMagnitude_pack (by decide) (.inr le_rfl), ← pow_add]
  congr 1
  omega

/-- A finite number of magnitude at most `2^e`. -/
def AtMostPow (e : Nat) (a : Word) : Prop := AtMost (2 ^ (149 + e)) a

theorem atMostPow_mono {e f : Nat} {a : Word} (hef : e ≤ f) (h : AtMostPow e a) : AtMostPow f a :=
  ⟨h.1, h.2.trans (Nat.pow_le_pow_right (by decide) (by omega))⟩

/-- What is rounded from an exact value of magnitude at most `2^e` is of magnitude at most `2^e`. -/
theorem atMostPow_of_rounds {s e : Nat} {v : Int} {r : Word} (he : e ≤ 127) (h : Rounds s v r)
    (hv : v.natAbs ≤ 2 ^ (149 + e) * 2 ^ s) : AtMostPow e r := by
  obtain ⟨k, hk⟩ := exists_bitsMagnitude_eq_two_pow e
  refine ⟨isFinite_of_rounds h ?_, hk ▸ scaled_natAbs_le_of_rounds h (hk.symm ▸ hv)⟩
  have hpow : 2 ^ (149 + e) ≤ 2 ^ 276 := Nat.pow_le_pow_right (by decide) (by omega)
  exact hv.trans_lt (Nat.mul_lt_mul_of_pos_right (by omega) (Nat.two_pow_pos s))

theorem atMostPow_fadd {e : Nat} {a b : Word} (he : e ≤ 126) (ha : AtMostPow e a) (hb : AtMostPow e b) :
    AtMostPow (e + 1) (fadd a b) := by
  obtain ⟨hfa, hla⟩ := ha
  obtain ⟨hfb, hlb⟩ := hb
  refine atMostPow_of_rounds (by omega) (fadd_rounds hfa hfb) ?_
  rw [← Nat.add_assoc, Nat.pow_succ]
  omega

theorem atMostPow_fsub {e : Nat} {a b : Word} (he : e ≤ 126) (ha : AtMostPow e a) (hb : AtMostPow e b) :
    AtMostPow (e + 1) (fsub a b) := atMostPow_fadd he ha (atMost_fneg hb)

theorem atMostPow_fmul {e f : Nat} {a b : Word} (hef : e + f ≤ 127) (ha : AtMostPow e a) (hb : AtMostPow f b) :
    AtMostPow (e + f) (fmul a b) := by
  obtain ⟨hfa, hla⟩ := ha
  obtain ⟨hfb, hlb⟩ := hb
  refine atMostPow_of_rounds hef (fmul_rounds hfa hfb) ?_
  calc (scaled a * scaled b).natAbs = (scaled a).natAbs * (scaled b).natAbs := Int.natAbs_mul _ _
    _ ≤ 2 ^ (149 + e) * 2 ^ (149 + f) := Nat.mul_le_mul hla hlb
    _ = 2 ^ (149 + (e + f)) * 2 ^ 149 := by ring

/-! The operations of EVALUATE (R112 to R120). -/

theorem atMostPow_frac {c : Word} (hc : isFinite c = true) : AtMostPow 0 (frac c) := by
  obtain ⟨hfin, -, hlo, hhi, -⟩ := fractionalPartIsBetweenZeroAndOne c hc
  exact ⟨hfin, by omega⟩

theorem atMostPow_const : AtMostPow 0 fOne ∧ AtMostPow 3 fSix ∧ AtMostPow 4 fFifteen ∧ AtMostPow 4 fTen :=
  ⟨⟨rfl, by decide⟩, ⟨rfl, by decide⟩, ⟨rfl, by decide⟩, ⟨rfl, by decide⟩⟩

/-- A fade weight is at most 2^6, the bounds of R113's operations being taken separately. -/
theorem atMostPow_fade {t : Word} (ht : AtMostPow 0 t) : AtMostPow 6 (fade t) := by
  obtain ⟨-, hsix, hfifteen, hten⟩ := atMostPow_const
  have hcube : AtMostPow 0 (fmul (fmul t t) t) := atMostPow_fmul (by decide) (atMostPow_fmul (by decide) ht ht) ht
  have hp : AtMostPow 3 (fmul t fSix) := atMostPow_fmul (by decide) ht hsix
  have hq : AtMostPow 5 (fsub (fmul t fSix) fFifteen) :=
    atMostPow_fsub (by decide) (atMostPow_mono (by decide) hp) hfifteen
  have hr : AtMostPow 5 (fmul t (fsub (fmul t fSix) fFifteen)) := atMostPow_fmul (by decide) ht hq
  exact atMostPow_fmul (by decide) hcube (atMostPow_fadd (by decide) hr (atMostPow_mono (by decide) hten))

theorem atMostPow_grad (hv : Nat) {gx gy gz : Word} (hx : AtMostPow 1 gx) (hy : AtMostPow 1 gy) (hz : AtMostPow 1 gz) :
    AtMostPow 2 (grad hv gx gy gz) :=
  grad_of_offsets (P := AtMostPow 1) (fun _ => atMost_fneg) (fun _ _ => atMostPow_fadd (by decide)) hv hx hy hz

/-- One LERP with a weight of at most `2^6` raises a bound by `2^8` at most. -/
theorem atMostPow_lerp {e : Nat} {t a b : Word} (he : e ≤ 100) (ht : AtMostPow 6 t) (ha : AtMostPow e a)
    (hb : AtMostPow e b) : AtMostPow (e + 8) (lerp t a b) := by
  have hmul : AtMostPow (6 + (e + 1)) (fmul t (fsub b a)) :=
    atMostPow_fmul (by omega) ht (atMostPow_fsub (by omega) hb ha)
  exact atMostPow_fadd (by omega) (atMostPow_mono (by omega) ha) (atMostPow_mono (by omega) hmul)

/-- Settles O32: with offsets of at most 2 and weights of at most `2^6` the sample is at most `2^26`. -/
theorem finiteCoordinatesGiveAFiniteSample : Obligations.FiniteCoordinatesGiveAFiniteSample := by
  intro d perm x y z hx hy hz
  rw [evaluate_of_isFinite d perm hx hy hz]
  have hweight : ∀ {c : Word}, isFinite c = true → AtMostPow 6 (fade (frac c)) := fun hc =>
    atMostPow_fade (atMostPow_frac hc)
  have near : ∀ {c : Word}, isFinite c = true → AtMostPow 1 (frac c) := fun hc =>
    atMostPow_mono (by decide) (atMostPow_frac hc)
  have far : ∀ {c : Word}, isFinite c = true → AtMostPow 1 (fsub (frac c) fOne) := fun hc =>
    atMostPow_fsub (by decide) (atMostPow_frac hc) atMostPow_const.1
  have alongX : ∀ {a b : Word}, AtMostPow 2 a → AtMostPow 2 b → AtMostPow 10 (lerp (fade (frac x)) a b) :=
    atMostPow_lerp (by decide) (hweight hx)
  have alongY : ∀ {a b : Word}, AtMostPow 10 a → AtMostPow 10 b → AtMostPow 18 (lerp (fade (frac y)) a b) :=
    atMostPow_lerp (by decide) (hweight hy)
  have hsample : AtMostPow 26 (interpolate d perm x y z) := by
    refine atMostPow_lerp (by decide) (hweight hz) ?_ ?_
    · exact alongY
        (alongX (atMostPow_grad _ (near hx) (near hy) (near hz)) (atMostPow_grad _ (far hx) (near hy) (near hz)))
        (alongX (atMostPow_grad _ (near hx) (far hy) (near hz)) (atMostPow_grad _ (far hx) (far hy) (near hz)))
    · exact alongY
        (alongX (atMostPow_grad _ (near hx) (near hy) (far hz)) (atMostPow_grad _ (far hx) (near hy) (far hz)))
        (alongX (atMostPow_grad _ (near hx) (far hy) (far hz)) (atMostPow_grad _ (far hx) (far hy) (far hz)))
  exact hsample.1

end Sys2Proof.Proofs
end

section
/-! PROOFS. Where no step is enabled, and what a step of a FAULTED core can do (spec/60_exceptions.md R209, R219,
spec/30_encoding.md R74). -/

namespace Sys2Proof.Proofs

open Sys2Proof.Machine

/-- With nothing offered the core waits (R218, R219). -/
theorem step_of_host_nil {s : State} (hhost : s.host = []) : step s = .refused .awaitingHost := by
  simp [step, nextAction, hhost]

/-- Nothing can be taken from an empty queue (R74, R211). -/
theorem step_takeResponse_of_rspq_nil {s : State} {rest : List HostEvent} (hhost : s.host = .takeResponse :: rest)
    (hq : s.rspq = []) : step s = .refused .noResponse := by
  simp [step, nextAction, hhost, takeResponse, hq]

/-- Settles O10, one wait after the other. -/
theorem waitsAreNotSteps : Obligations.WaitsAreNotSteps :=
  ⟨fun _ => step_of_host_nil, fun _ _ _ => step_word_of_faulted,
    fun _ _ _ hhost hf hheld => step_word_of_held hhost hf (Option.isSome_iff_ne_none.2 hheld),
    fun _ _ => step_takeResponse_of_rspq_nil⟩

/-- What is left to the host of a FAULTED core: to take a response, to store, to reset; no word is accepted (R209). -/
theorem step_cases_of_faulted {s t : State} (hf : s.faulted = true) (h : step s = .next t) :
    ∃ event rest, s.host = event :: rest ∧
      ((event = .takeResponse ∧ takeResponse { s with host := rest } = .next t) ∨
       (∃ cell value, event = .store cell value ∧ hostStore cell.toNat value { s with host := rest } = .next t) ∨
       (event = .reset ∧ t = doReset { s with host := rest })) := by
  obtain ⟨event, rest, hhost, htake | hstore | hreset | ⟨hrun, -⟩⟩ := step_cases h
  · exact ⟨event, rest, hhost, .inl htake⟩
  · exact ⟨event, rest, hhost, .inr (.inl hstore)⟩
  · exact ⟨event, rest, hhost, .inr (.inr hreset)⟩
  · simp [hf] at hrun

/-- Settles O50: taking a response touches the queue and its windows alone, a store the memory alone. -/
theorem faultedCoreIsInertUntilReset : Obligations.FaultedCoreIsInertUntilReset := by
  intro s t hf hidle h hnoreset
  obtain ⟨event, rest, hhost, ⟨rfl, htake⟩ | ⟨cell, value, rfl, hstore⟩ | ⟨rfl, -⟩⟩ := step_cases_of_faulted hf h
  case inl =>
    obtain ⟨front, more, hq, rfl⟩ := takeResponse_eq_next htake
    have htail : more = s.rspq.tail := by rw [show s.rspq = front :: more from hq, List.tail_cons]
    exact ⟨hf, rfl, rfl, rfl, rfl, rfl, .inr ⟨by simp [hidle, htail], rfl⟩, fun _ => rfl⟩
  case inr.inl =>
    obtain ⟨-, -, -, rfl⟩ := hostStore_eq_next hstore
    exact ⟨hf, rfl, rfl, rfl, rfl, hidle, .inl ⟨rfl, rfl⟩, fun hno => absurd (by rw [hhost]; rfl) (hno cell value)⟩
  case inr.inr => exact absurd (by rw [hhost]; rfl) hnoreset

end Sys2Proof.Proofs
end

section
/-! PROOFS. An illegal header at a packet boundary (spec/30_encoding.md R66, spec/60_exceptions.md R202, R207). -/

namespace Sys2Proof.Proofs

open Sys2Proof.Machine

/-- A word that the decoder calls illegal does fault entry, with that word as its information. -/
theorem step_word_of_decode_illegalHeader {s : State} {w hdr : Word} {rest : List HostEvent}
    (hhost : s.host = .word w :: rest) (hf : s.faulted = false) (hh : s.rspHold = none)
    (hd : decode (s.cmdbuf ++ [w]) = .error (.illegalHeader hdr)) :
    step s = .next (raiseFault .illegalCommand hdr (headerOp hdr) { s with host := rest }) := by
  simp [step, nextAction, hhost, acceptWord, hf, hh, hd]

theorem headerOp_toNat (hdr : Word) : (headerOp hdr).toNat = hdr.toNat % 0x100 := by
  simp [headerOp]

/-- The response of IllegalCommand: its cause above the low byte of the header (R69, R202). -/
theorem responseWord_illegalCommand (hdr : Word) :
    responseWord (headerOp hdr) (causeCode .illegalCommand) = BitVec.ofNat 32 (0x100 + hdr.toNat % 0x100) := by
  rw [responseWord_eq, headerOp_toNat]
  rfl

/-- Settles O7: at a packet boundary the word is the header, which the decoder calls illegal. -/
theorem illegalHeaderEntersTheFault : Obligations.IllegalHeaderEntersTheFault := by
  intro s w rest hhost hf hh hbuf hC hS hP
  have hd : decode (s.cmdbuf ++ [w]) = .error (.illegalHeader w) := by
    rw [hbuf]
    exact decode_cons_of_ne hC hS hP []
  have hresponded := responded_raiseFault { s with host := rest } .illegalCommand w (headerOp w)
  rw [responseWord_illegalCommand] at hresponded
  exact ⟨_, step_word_of_decode_illegalHeader hhost hf hh hd, raiseFault_faulted .., raiseFault_cause ..,
    raiseFault_finfo .., raiseFault_cmdbuf .., hresponded, raiseFault_windows .., raiseFault_perm .., raiseFault_mem ..,
    raiseFault_draws .., raiseFault_host .., raiseFault_cfg ..⟩

end Sys2Proof.Proofs
end

section
/-! PROOFS. The faults of PROCESS (spec/60_exceptions.md R203 to R206, spec/42_process.md R141): which check answers, on
which buffer, and the fault entry that follows. -/

namespace Sys2Proof.Proofs

open Sys2Proof.Machine

/-! One buffer against one check, in numbers (R47, R141). -/

theorem descriptorBad_eq_true_iff {cfg : Config} {d : Descriptor} :
    descriptorBad cfg d = true ↔ 2 ^ cfg.aw < d.base.toNat + d.len.toNat := decide_eq_true_iff

theorem descriptorBad_eq_false_iff {cfg : Config} {d : Descriptor} :
    descriptorBad cfg d = false ↔ d.base.toNat + d.len.toNat ≤ 2 ^ cfg.aw :=
  decide_eq_false_iff_not.trans Nat.not_lt

theorem bufferShort_eq_true_iff {n : Word} {d : Descriptor} : bufferShort n d = true ↔ d.len.toNat < n.toNat :=
  decide_eq_true_iff

theorem bufferShort_eq_false_iff {n : Word} {d : Descriptor} : bufferShort n d = false ↔ n.toNat ≤ d.len.toNat :=
  decide_eq_false_iff_not.trans Nat.not_lt

theorem buffersMeet_eq_true_iff {o d : Descriptor} {n : Word} :
    buffersMeet o n d = true ↔
      d.base.toNat < o.base.toNat + n.toNat ∧ o.base.toNat < d.base.toNat + n.toNat := by
  simp [buffersMeet]

/-- Two ranges are apart when one ends before the other begins. -/
theorem buffersMeet_eq_false_iff {o d : Descriptor} {n : Word} :
    buffersMeet o n d = false ↔
      d.base.toNat + n.toNat ≤ o.base.toNat ∨ o.base.toNat + n.toNat ≤ d.base.toNat := by
  rw [← Bool.not_eq_true, buffersMeet_eq_true_iff]
  omega

/-! The lowest buffer (R206). -/

/-- The search for a buffer finds the lowest one that fails. -/
theorem findIdx?_eq_some_of_lowest {ds : List Descriptor} {fails : Descriptor → Bool} {b : Nat} {d : Descriptor}
    (hd : ds[b]? = some d) (hfails : fails d = true)
    (hlowest : ∀ b' < b, ∀ d', ds[b']? = some d' → fails d' = false) : ds.findIdx? fails = some b := by
  obtain ⟨hb, rfl⟩ := List.getElem?_eq_some_iff.1 hd
  exact List.findIdx?_eq_some_iff_getElem.2 ⟨hb, hfails, fun b' hb' => by
    simp [hlowest b' hb' _ (List.getElem?_eq_getElem (hb'.trans hb))]⟩

theorem bufferIndex_toNat {ds : List Descriptor} {b : Nat} {d : Descriptor} (hd : ds[b]? = some d)
    (hlen : ds.length ≤ 4) : (bufferIndex b).toNat = b := by
  obtain ⟨hb, -⟩ := List.getElem?_eq_some_iff.1 hd
  exact Nat.mod_eq_of_lt (by omega)

/-! The order of the checks (R206): each is reached when those before it pass on every buffer. -/

section

variable {cfg : Config} {x y z o : Descriptor} {n : Word} {b : Nat}

theorem checkProcess_of_descriptorBad (hbad : [x, y, z, o].findIdx? (descriptorBad cfg) = some b) :
    checkProcess cfg x y z o n = some (.badDescriptor, bufferIndex b) := by
  rw [checkProcess, hbad]

theorem checkProcess_of_bufferShort (hwell : ∀ e ∈ [x, y, z, o], descriptorBad cfg e = false)
    (hshort : [x, y, z, o].findIdx? (bufferShort n) = some b) :
    checkProcess cfg x y z o n = some (.bufferTooShort, bufferIndex b) := by
  rw [checkProcess, List.findIdx?_eq_none_iff.2 hwell, hshort]

theorem checkProcess_of_buffersMeet (hwell : ∀ e ∈ [x, y, z, o], descriptorBad cfg e = false)
    (hlong : ∀ e ∈ [x, y, z, o], bufferShort n e = false) (hn : n ≠ 0#32)
    (hmeet : [x, y, z].findIdx? (buffersMeet o n) = some b) :
    checkProcess cfg x y z o n = some (.bufferOverlap, bufferIndex b) := by
  rw [checkProcess, List.findIdx?_eq_none_iff.2 hwell, List.findIdx?_eq_none_iff.2 hlong]
  simp [hn, hmeet]

end

/-- A check that fails ends the PROCESS in fault entry, and nothing else has happened (R147, R207). -/
theorem exec_process_of_checkProcess {s : State} {x y z o : Descriptor} {n info w : Word} {c : FaultCause} {b : Nat}
    (hcheck : checkProcess s.cfg x y z o n = some (c, info)) (hinfo : info.toNat = b)
    (hw : responseWord 0x02#8 (causeCode c) = w) :
    ∃ t, exec (.process x y z o n) s = .next t ∧ t.faulted = true ∧ t.cause = causeCode c ∧ t.finfo.toNat = b ∧
      t.cmdbuf = [] ∧ Posted s t w ∧ t.windows = s.windows ++ [[]] ∧ t.perm = s.perm ∧
      t.mem = s.mem ∧ t.draws = s.draws ∧ t.host = s.host ∧ t.cfg = s.cfg := by
  have hexec : exec (.process x y z o n) s = .next (raiseFault c info 0x02#8 s) := by
    change execProcess x y z o n s = _
    rw [execProcess, hcheck]
  obtain ⟨hposted, -⟩ := responded_raiseFault s c info 0x02#8
  exact ⟨_, hexec, raiseFault_faulted .., raiseFault_cause .., by rw [raiseFault_finfo, hinfo], raiseFault_cmdbuf ..,
    hw ▸ hposted, raiseFault_windows .., raiseFault_perm .., raiseFault_mem .., raiseFault_draws .., raiseFault_host ..,
    raiseFault_cfg ..⟩

/-- Settles O36: check 1 comes first. -/
theorem badDescriptorFaultsOnTheLowestBuffer : Obligations.BadDescriptorFaultsOnTheLowestBuffer := by
  intro s x y z o n b d hd hbad hlowest
  have hfound : [x, y, z, o].findIdx? (descriptorBad s.cfg) = some b :=
    findIdx?_eq_some_of_lowest hd (descriptorBad_eq_true_iff.2 hbad) fun b' hb' d' hd' =>
      descriptorBad_eq_false_iff.2 (hlowest b' hb' d' hd')
  exact exec_process_of_checkProcess (checkProcess_of_descriptorBad hfound) (bufferIndex_toNat hd (by simp))
    responseWord_badDescriptor

/-- Settles O37: check 1 passes on every buffer, so check 2 answers. -/
theorem shortBufferFaultsOnTheLowestBuffer : Obligations.ShortBufferFaultsOnTheLowestBuffer := by
  intro s x y z o n b d hwell hd hshort hlowest
  have hfound : [x, y, z, o].findIdx? (bufferShort n) = some b :=
    findIdx?_eq_some_of_lowest hd (bufferShort_eq_true_iff.2 hshort) fun b' hb' d' hd' =>
      bufferShort_eq_false_iff.2 (hlowest b' hb' d' hd')
  exact exec_process_of_checkProcess
    (checkProcess_of_bufferShort (fun e he => descriptorBad_eq_false_iff.2 (hwell e he)) hfound)
    (bufferIndex_toNat hd (by simp)) responseWord_bufferTooShort

/-- Settles O38: checks 1 and 2 pass on every buffer and there is a sample to process, so check 3 answers. -/
theorem overlapFaultsOnTheLowestInput : Obligations.OverlapFaultsOnTheLowestInput := by
  intro s x y z o n b d hlegal hpos hd hbelow habove hlowest
  have hfound : [x, y, z].findIdx? (buffersMeet o n) = some b :=
    findIdx?_eq_some_of_lowest hd (buffersMeet_eq_true_iff.2 ⟨hbelow, habove⟩) fun b' hb' d' hd' =>
      buffersMeet_eq_false_iff.2 (hlowest b' hb' d' hd')
  have hn : n ≠ 0#32 := by
    rintro rfl
    exact absurd hpos (by decide)
  exact exec_process_of_checkProcess
    (checkProcess_of_buffersMeet (fun e he => descriptorBad_eq_false_iff.2 (hlegal e he).1)
      (fun e he => bufferShort_eq_false_iff.2 (hlegal e he).2) hn hfound)
    (bufferIndex_toNat hd (by simp)) responseWord_bufferOverlap

end Sys2Proof.Proofs
end

section
/-! PROOFS. Reset (spec/70_reset_and_hazards.md R240, spec/10_state.md R35), also in the middle of a PROCESS: what a
PROCESS cut short has done is a run of some of its samples, so the facts about runs of samples say what it leaves. -/

namespace Sys2Proof.Proofs

open Sys2Proof.Machine

/-! The steps that reset (R240). -/

theorem step_reset {s : State} {rest : List HostEvent} (hhost : s.host = .reset :: rest) :
    step s = .next (doReset { s with host := rest }) := by
  simp [step, nextAction, hhost]

/-- A reset at the word that completes a packet abandons its command. -/
theorem step_wordCutByReset_of_decode_ok {s : State} {w : Word} {rest : List HostEvent} {i : Instr} {more : List Word}
    (hhost : s.host = .wordCutByReset w :: rest) (hf : s.faulted = false) (hh : s.rspHold = none)
    (hd : decode (s.cmdbuf ++ [w]) = .ok (i, more)) :
    step s = .next (doReset (abandon i { s with host := rest, cmdbuf := [] })) := by
  simp [step, nextAction, hhost, acceptWordCut, acceptWord, hf, hh, hd]

/-- Settles O51, by the fields of the reset state. -/
theorem resetRestoresTheCoreAndKeepsTheMemory : Obligations.ResetRestoresTheCoreAndKeepsTheMemory := by
  intro s rest hhost
  exact ⟨_, step_reset hhost, doReset_faulted _, doReset_cause _, doReset_finfo _, doReset_cmdbuf _, doReset_rspq _,
    doReset_rspHold _, doReset_windows _, doReset_perm _, doReset_mem _, doReset_host _, doReset_cfg _⟩

/-! What a PROCESS cut short has written (R240, U8). -/

/-- The samples that the draws let through are a run of their own. -/
theorem exists_sublist_processSamples_eq_cutSamples (x y z o : Descriptor) (ks : List Nat) (s : State) :
    ∃ ls, ls.Sublist ks ∧ processSamples x y z o ls s = .next (ks.foldl (cutSample x y z o) s) := by
  induction ks generalizing s with
  | nil => exact ⟨[], .slnil, rfl⟩
  | cons k ks ih =>
    obtain ⟨ls, hsub, hrun⟩ := ih (cutSample x y z o s k)
    rcases cutSample_cases x y z o s k with hskip | hdone
    · rw [hskip] at hrun
      exact ⟨ls, hsub.cons k, by rw [List.foldl_cons, hskip, hrun]⟩
    · exact ⟨k :: ls, hsub.cons_cons k, by rw [processSamples, hdone, andThen_next, List.foldl_cons, hrun]⟩

/-- A legal PROCESS that is abandoned leaves the memory that a run of some of its samples leaves (R41, R240). -/
theorem exists_processSamples_mem_abandon {s : State} {x y z o : Descriptor} {n : Word}
    (hlegal : ProcessLegal s.cfg x y z o n) :
    ∃ ls u, (∀ k ∈ ls, k < n.toNat) ∧ processSamples x y z o ls s = .next u ∧
      (abandon (.process x y z o n) s).mem = u.mem := by
  obtain ⟨ls, hsub, hrun⟩ := exists_sublist_processSamples_eq_cutSamples x y z o (List.range n.toNat) s
  refine ⟨ls, _, fun k hk => List.mem_range.1 (hsub.subset hk), hrun, ?_⟩
  simp only [abandon, checkProcess_eq_none.2 hlegal]

/-- A sample that is not in the run leaves its output cell as it was (R47). -/
theorem readCell_processSamples_of_not_mem {x y z o : Descriptor} {ks : List Nat} {s t : State}
    (h : processSamples x y z o ks s = .next t) (hw : s.mem.wf) {k : Nat} (hk : k ∉ ks) :
    readCell t.mem (elementCell o k) = readCell s.mem (elementCell o k) :=
  readCell_congr fun _ ha => readByte_processSamples_of_ne h hw fun _ hj heq =>
    hk (elementCell_inj.1 (ha.symm.trans heq) ▸ hj)

/-- An abandoned legal PROCESS leaves each output cell old or new, by whether its sample is in the run, and no other
byte changed. -/
theorem abandon_process_leaves_old_or_new {s : State} {x y z o : Descriptor} {n : Word} (hw : s.mem.wf)
    (hlegal : ProcessLegal s.cfg x y z o n) :
    (∀ k < n.toNat,
      readCell (abandon (.process x y z o n) s).mem (elementCell o k) = readCell s.mem (elementCell o k) ∨
      readCell (abandon (.process x y z o n) s).mem (elementCell o k) = sampleOf s x y z k) ∧
    ∀ a, (∀ k < n.toNat, a / 4 ≠ elementCell o k) →
      readByte (abandon (.process x y z o n) s).mem a = readByte s.mem a := by
  obtain ⟨ls, u, hls, hrun, hmem⟩ := exists_processSamples_mem_abandon hlegal
  rw [hmem]
  refine ⟨fun k _ => ?_, fun a ha => readByte_processSamples_of_ne hrun hw fun k hk => ha k (hls k hk)⟩
  by_cases hk : k ∈ ls
  · exact .inr (readCell_processSamples hrun hw hlegal hls hk)
  · exact .inl (readCell_processSamples_of_not_mem hrun hw hk)

/-- Settles O52: the step is reset on what the abandoned PROCESS leaves, and reset keeps the memory. -/
theorem resetDuringProcessLeavesOldOrNewCells : Obligations.ResetDuringProcessLeavesOldOrNewCells := by
  intro s w rest x y z o n hhost hf hidle hw hd hlegal
  obtain ⟨hevents, hcfg⟩ := abandon_keeps_host_cfg (.process x y z o n) { s with host := rest, cmdbuf := [] }
  obtain ⟨hcells, hbytes⟩ :=
    abandon_process_leaves_old_or_new (s := { s with host := rest, cmdbuf := [] }) hw hlegal
  exact ⟨_, step_wordCutByReset_of_decode_ok hhost hf hidle hd, doReset_faulted _, doReset_cause _, doReset_finfo _,
    doReset_cmdbuf _, doReset_rspq _, doReset_rspHold _, doReset_windows _, doReset_perm _, hevents, hcfg, hcells,
    hbytes⟩

end Sys2Proof.Proofs
end
